-- ==== Sys2Proof/Word.lean ====
section
/-! DEFINITION. The words of the machine and their plainest arithmetic: 32-bit registers, addresses and instruction
words (00_scope.md R8), bytes, and the masks of R8. -/

namespace Sys2Proof

/-- A register, an address, an instruction word or an assembled immediate (00_scope.md R8). -/
abbrev Word := BitVec 32

/-- One byte of `DMEM` or of the console stream. -/
abbrev Byte := BitVec 8

/-- A register index, 3 bits wide: every value names a register (10_state.md R15). -/
abbrev RegIdx := BitVec 3

/-- A register index is below the number of registers. -/
theorem RegIdx.toNat_lt (i : RegIdx) : i.toNat < 8 := i.isLt

/-- `mask(N)`: N one bits (00_scope.md R8). -/
def mask (n : Nat) : Word := (1#32 <<< n) - 1#32

end Sys2Proof
end

