-- ==== Sys2Proof/Config.lean ====
section
/-! DEFINITION. What an implementation fixes: the named parameters of 00_scope.md R6, as plain data. Their reference
values stand in Sys2Proof/Machine/Parameters.lean. -/

namespace Sys2Proof

/-- The closed set of mnemonics, in the order of 30_encoding.md R62. -/
inductive Mnemonic where
  | and | or | xor | not | add | adc | sub | cmp | xchg | mult | div | mov
  | load | store | push | pop
  | moviu | addi | addiu | cmpiu | shift
  | jne | jl | jsr | jmp | jr | sys
  | swapcc | halt
  deriving DecidableEq, Repr

/-- Every mnemonic, once. -/
def Mnemonic.all : List Mnemonic :=
  [.and, .or, .xor, .not, .add, .adc, .sub, .cmp, .xchg, .mult, .div, .mov] ++
  [.load, .store, .push, .pop] ++ [.moviu, .addi, .addiu, .cmpiu, .shift] ++
  [.jne, .jl, .jsr, .jmp, .jr, .sys] ++ [.swapcc, .halt]

/-- `OPCODE_MAP`: the numeric opcode of each instruction (30_encoding.md R62, D1). -/
structure OpcodeMap where
  and : BitVec 5
  or : BitVec 5
  xor : BitVec 5
  not : BitVec 5
  add : BitVec 5
  adc : BitVec 5
  sub : BitVec 5
  cmp : BitVec 5
  xchg : BitVec 5
  mult : BitVec 5
  div : BitVec 5
  mov : BitVec 5
  load : BitVec 5
  store : BitVec 5
  push : BitVec 5
  pop : BitVec 5
  moviu : BitVec 5
  addi : BitVec 5
  addiu : BitVec 5
  cmpiu : BitVec 5
  shift : BitVec 5
  jne : BitVec 5
  jl : BitVec 5
  jsr : BitVec 5
  jmp : BitVec 5
  jr : BitVec 5
  sys : BitVec 5
  swapcc : BitVec 5
  halt : BitVec 5
  deriving DecidableEq, Repr

/-- The opcode the map gives a mnemonic. -/
def OpcodeMap.code (map : OpcodeMap) : Mnemonic → BitVec 5
  | .and => map.and
  | .or => map.or
  | .xor => map.xor
  | .not => map.not
  | .add => map.add
  | .adc => map.adc
  | .sub => map.sub
  | .cmp => map.cmp
  | .xchg => map.xchg
  | .mult => map.mult
  | .div => map.div
  | .mov => map.mov
  | .load => map.load
  | .store => map.store
  | .push => map.push
  | .pop => map.pop
  | .moviu => map.moviu
  | .addi => map.addi
  | .addiu => map.addiu
  | .cmpiu => map.cmpiu
  | .shift => map.shift
  | .jne => map.jne
  | .jl => map.jl
  | .jsr => map.jsr
  | .jmp => map.jmp
  | .jr => map.jr
  | .sys => map.sys
  | .swapcc => map.swapcc
  | .halt => map.halt

/-- R6 asks for an injective map. -/
def OpcodeMap.injective (map : OpcodeMap) : Bool :=
  decide ((Mnemonic.all.map map.code).Nodup)

/-- `JSR_LAYOUT` (30_encoding.md R52, D5). -/
inductive JsrLayout where
  | l27 | l24
  deriving DecidableEq, Repr

/-- `STACK_MODE` (42_load_store.md R99, D16). -/
inductive StackMode where
  | fullDescending | emptyDescending
  deriving DecidableEq, Repr

/-- `LOAD_EXT` (42_load_store.md R97, D14). -/
inductive LoadExt where
  | zero | sign
  deriving DecidableEq, Repr

/-- The parameters of 00_scope.md R6. -/
structure Config where
  /-- `MEM_SIZE`, the byte capacity of `DMEM` (D7). -/
  memSize : Nat
  /-- `CONSOLE_ADDR`, the console port's byte address (D8). -/
  consoleAddr : Word
  /-- `HARVARD`: fetch reads `IMEM` when true (D31). -/
  harvard : Bool
  /-- `IMEM_WORDS`, used only when `HARVARD` is true (D31). -/
  imemWords : Nat
  /-- `OPCODE_MAP` (D1). -/
  opcodeMap : OpcodeMap
  /-- `JSR_LAYOUT` (D5). -/
  jsrLayout : JsrLayout
  /-- `STACK_MODE` (D16). -/
  stackMode : StackMode
  /-- `R7_WRITE_ADVANCE` (D17). -/
  r7WriteAdvance : Bool
  /-- `LOAD_EXT` (D14). -/
  loadExt : LoadExt
  /-- `HALT_ON_FAULT` (D28). -/
  haltOnFault : Bool
  deriving DecidableEq, Repr

/-- R6's bounds on `MEM_SIZE`: a power of two, 4 ≤ `MEM_SIZE` ≤ 2^31. -/
def Config.memSizeAllowed (c : Config) : Bool :=
  (List.range 32).any fun k => decide (2 ≤ k) && c.memSize == 2 ^ k

/-- The values R6 allows: a memory size within its bounds and an injective opcode map. -/
def Config.wf (c : Config) : Bool := c.memSizeAllowed && c.opcodeMap.injective

end Sys2Proof
end

