-- ==== Sys2Proof/Machine/Parameters.lean ====
section
/-! DEFINITION. The reference values: those of the parameters (00_scope.md R6) and of the registers at reset
(70_reset_and_hazards.md R132). -/

namespace Sys2Proof

/-- The reference `OPCODE_MAP`: the table of 30_encoding.md R62 (D1). Not claimed to be the repository's numbers. -/
def referenceOpcodeMap : OpcodeMap where
  and := 0
  or := 1
  xor := 2
  not := 3
  add := 4
  adc := 5
  sub := 6
  cmp := 7
  xchg := 8
  mult := 9
  div := 10
  mov := 11
  load := 12
  store := 13
  push := 14
  pop := 15
  moviu := 16
  addi := 17
  addiu := 18
  cmpiu := 19
  shift := 20
  jne := 21
  jl := 22
  jsr := 23
  jmp := 24
  jr := 25
  sys := 26
  swapcc := 27
  halt := 28

/-- The reference value of every parameter (00_scope.md R6). -/
def referenceConfig : Config where
  memSize := 2 ^ 24
  consoleAddr := 0xFFFFFFFF#32
  harvard := false
  imemWords := 2 ^ 22
  opcodeMap := referenceOpcodeMap
  jsrLayout := .l27
  stackMode := .fullDescending
  r7WriteAdvance := true
  loadExt := .zero
  haltOnFault := false

/-- The general registers at reset, PC and SP among them: all 0 (R132, R133, D30). DESIGN CHOICE (log 11), unsafe: R132
also lets a model leave x[0] to x[6] unknown. -/
def resetRegisters : Vector Word 8 := Vector.replicate 8 0#32

end Sys2Proof
end

