-- ==== Sys2Proof/Syntax.lean ====
section
/-! DEFINITION. The instructions as syntax: one constructor per row of spec/opcode_table.json, holding the operands the
row's handler reads (30_encoding.md R50, R56, R62). Bits and roles a handler does not read are no part of an
instruction (R51). -/

namespace Sys2Proof

/-- The 29 instructions. `d` and `s` are register roles, `m` a modifier, `imm` the layout's immediate (R50). -/
inductive Instr where
  | and (d s : RegIdx)
  | or (d s : RegIdx)
  | xor (d s : RegIdx)
  | not (d s : RegIdx)
  | add (d s : RegIdx)
  | adc (d s : RegIdx)
  | sub (d s : RegIdx)
  | cmp (d s : RegIdx)
  | xchg (d s : RegIdx)
  | mult (d s : RegIdx)
  | div (d s : RegIdx)
  | mov (d s : RegIdx)
  | load (d s : RegIdx) (m : BitVec 3) (imm : BitVec 18)
  | store (d s : RegIdx) (m : BitVec 3) (imm : BitVec 18)
  | push (d : RegIdx)
  | pop (d : RegIdx)
  | moviu (d : RegIdx) (imm : BitVec 16)
  | addi (d : RegIdx) (imm : BitVec 24)
  | addiu (d : RegIdx) (imm : BitVec 24)
  | cmpiu (d : RegIdx) (imm : BitVec 24)
  | shift (d : RegIdx) (m : BitVec 3) (imm : BitVec 21)
  | jne (imm : BitVec 27)
  | jl (imm : BitVec 27)
  | jsr (d : RegIdx) (imm : BitVec 27)
  | jmp (imm : BitVec 27)
  | jr (d : RegIdx) (imm : BitVec 24)
  | sys (imm : BitVec 27)
  | swapcc (d : RegIdx)
  | halt
  deriving DecidableEq, Repr

/-- The mnemonic of an instruction. -/
def Instr.mnemonic : Instr → Mnemonic
  | .and _ _ => .and
  | .or _ _ => .or
  | .xor _ _ => .xor
  | .not _ _ => .not
  | .add _ _ => .add
  | .adc _ _ => .adc
  | .sub _ _ => .sub
  | .cmp _ _ => .cmp
  | .xchg _ _ => .xchg
  | .mult _ _ => .mult
  | .div _ _ => .div
  | .mov _ _ => .mov
  | .load _ _ _ _ => .load
  | .store _ _ _ _ => .store
  | .push _ => .push
  | .pop _ => .pop
  | .moviu _ _ => .moviu
  | .addi _ _ => .addi
  | .addiu _ _ => .addiu
  | .cmpiu _ _ => .cmpiu
  | .shift _ _ _ => .shift
  | .jne _ => .jne
  | .jl _ => .jl
  | .jsr _ _ => .jsr
  | .jmp _ => .jmp
  | .jr _ _ => .jr
  | .sys _ => .sys
  | .swapcc _ => .swapcc
  | .halt => .halt

end Sys2Proof
end

