-- ==== Sys2Proof/WellFormed.lean ====
section
/-! DEFINITION. Which instructions a word can stand for. The types of Syntax.lean leave one thing to check: JSR's link
register and immediate share bits 26:24 of the word (30_encoding.md R52). A reserved size or shift kind is well formed:
it decodes, and its handler ends in the undefined stop (R64). -/

namespace Sys2Proof

/-- JSR under `JSR_LAYOUT = L27`: the link register is bits 26:24 of the immediate. Under L24: the immediate has 24 bits,
so those bits are zero (R52). -/
def jsrWellFormed (layout : JsrLayout) (d : RegIdx) (imm : BitVec 27) : Bool :=
  match layout with
  | .l27 => imm.extractLsb' 24 3 == d
  | .l24 => imm.extractLsb' 24 3 == 0#3

/-- An instruction that some word encodes under the configuration. -/
def Instr.wf (c : Config) : Instr → Bool
  | .and _ _ => true
  | .or _ _ => true
  | .xor _ _ => true
  | .not _ _ => true
  | .add _ _ => true
  | .adc _ _ => true
  | .sub _ _ => true
  | .cmp _ _ => true
  | .xchg _ _ => true
  | .mult _ _ => true
  | .div _ _ => true
  | .mov _ _ => true
  | .load _ _ _ _ => true
  | .store _ _ _ _ => true
  | .push _ => true
  | .pop _ => true
  | .moviu _ _ => true
  | .addi _ _ => true
  | .addiu _ _ => true
  | .cmpiu _ _ => true
  | .shift _ _ _ => true
  | .jne _ => true
  | .jl _ => true
  | .jsr d imm => jsrWellFormed c.jsrLayout d imm
  | .jmp _ => true
  | .jr _ _ => true
  | .sys _ => true
  | .swapcc _ => true
  | .halt => true

end Sys2Proof
end

