-- ==== Sys2Proof/Decode.lean ====
section
/-! DEFINITION. The Instruction Codec of 30_encoding.md: extension, layouts, Unpack, Pack, ImmEncode and its descriptors,
and on them the decoder and the encoder of instructions. -/

namespace Sys2Proof

/-! ## Extension and byte order -/

/-- `zext_N(v)` (00_scope.md R9). -/
def zext (n : Nat) (v : Word) : Word := v &&& mask n

/-- `sext_N(v)`, 1 ≤ N ≤ 31 (00_scope.md R9). -/
def sext (n : Nat) (v : Word) : Word :=
  if v.getLsbD (n - 1) then (v &&& mask n) ||| ~~~(mask n) else v &&& mask n

/-- The value of bytes that lie least significant first (20_memory.md R32). -/
def littleEndian : List Byte → Word
  | [] => 0#32
  | b :: bs => b.setWidth 32 ||| (littleEndian bs <<< 8)

/-- The low `n` bytes of a value, least significant first: byte i holds bits 8i+7..8i (20_memory.md R33). -/
def bytesOf : Nat → Word → List Byte
  | 0, _ => []
  | n + 1, v => v.setWidth 8 :: bytesOf n (v >>> 8)

/-! ## Layouts -/

/-- The six field layouts of 30_encoding.md R49. -/
inductive Layout where
  | l27 | l24 | l21 | l18 | l16 | l6
  deriving DecidableEq, Repr

/-- The immediate width N of a layout (R49). -/
def Layout.width : Layout → Nat
  | .l27 => 27
  | .l24 => 24
  | .l21 => 21
  | .l18 => 18
  | .l16 => 16
  | .l6 => 6

/-- The layout has a field at offset 24 (R54). -/
def Layout.hasFieldA : Layout → Bool
  | .l27 => false
  | .l24 | .l21 | .l18 | .l16 | .l6 => true

/-- The layout has a field at offset 21 (R54). -/
def Layout.hasFieldB : Layout → Bool
  | .l27 | .l24 => false
  | .l21 | .l18 | .l16 | .l6 => true

/-- The layout has a field at offset 18 (R54). -/
def Layout.hasFieldC : Layout → Bool
  | .l27 | .l24 | .l21 => false
  | .l18 | .l16 | .l6 => true

/-- The layout of each mnemonic (R62); JSR's is the parameter `JSR_LAYOUT` (R52). -/
def layoutOf (c : Config) : Mnemonic → Layout
  | .and | .or | .xor | .not | .add | .adc | .sub | .cmp | .xchg | .mult | .div | .mov => .l6
  | .load | .store => .l18
  | .push | .pop => .l6
  | .moviu => .l16
  | .addi | .addiu | .cmpiu => .l24
  | .shift => .l21
  | .jne | .jl => .l27
  | .jsr =>
    match c.jsrLayout with
    | .l27 => .l27
    | .l24 => .l24
  | .jmp => .l27
  | .jr => .l24
  | .sys => .l27
  | .swapcc => .l6
  | .halt => .l27

/-! ## Unpack and Pack -/

/-- What `Unpack` gives for a word (R53). `valid` is `mnemonic.isSome`. -/
structure Unpacked where
  op : BitVec 5
  mnemonic : Option Mnemonic
  layout : Option Layout
  fa : BitVec 3
  fb : BitVec 3
  fc : BitVec 3
  imm : Word
  d : Option (BitVec 3)
  s : Option (BitVec 3)
  m : Option (BitVec 3)
  deriving DecidableEq, Repr

/-- The mnemonic `OPCODE_MAP` gives an opcode, if any (R62, R63). -/
def mnemonicOf (map : OpcodeMap) (op : BitVec 5) : Option Mnemonic :=
  Mnemonic.all.find? fun m => map.code m == op

/-- The destination role of the field-layout multiplex (R50, and R52 for JSR). -/
def roleD (layout : Layout) (m : Mnemonic) (fa : BitVec 3) : Option (BitVec 3) :=
  match layout with
  | .l27 => if m = .jsr then some fa else none
  | .l24 | .l21 | .l18 | .l16 | .l6 => some fa

/-- The source role of the multiplex (R50). -/
def roleS (layout : Layout) (fb : BitVec 3) : Option (BitVec 3) :=
  match layout with
  | .l27 | .l24 | .l21 => none
  | .l18 | .l16 | .l6 => some fb

/-- The modifier role of the multiplex (R50, D4). -/
def roleM (layout : Layout) (fb fc : BitVec 3) : Option (BitVec 3) :=
  match layout with
  | .l27 | .l24 => none
  | .l21 => some fb
  | .l18 | .l16 | .l6 => some fc

/-- The sub-fields at their fixed offsets (R47). -/
def opField (w : Word) : BitVec 5 := w.extractLsb' 27 5
def fieldA (w : Word) : BitVec 3 := w.extractLsb' 24 3
def fieldB (w : Word) : BitVec 3 := w.extractLsb' 21 3
def fieldC (w : Word) : BitVec 3 := w.extractLsb' 18 3

/-- `Unpack(w)`, total on every word (R53). -/
def unpack (c : Config) (w : Word) : Unpacked :=
  match mnemonicOf c.opcodeMap (opField w) with
  | some m =>
    { op := opField w
      mnemonic := some m
      layout := some (layoutOf c m)
      fa := fieldA w
      fb := fieldB w
      fc := fieldC w
      imm := w &&& mask (layoutOf c m).width
      d := roleD (layoutOf c m) m (fieldA w)
      s := roleS (layoutOf c m) (fieldB w)
      m := roleM (layoutOf c m) (fieldB w) (fieldC w) }
  | none =>
    { op := opField w
      mnemonic := none
      layout := none
      fa := fieldA w
      fb := fieldB w
      fc := fieldC w
      imm := w &&& mask 27
      d := none
      s := none
      m := none }

/-- A supplied field cut to 3 bits, or zero where the layout has no such field (R54, D39). -/
def suppliedField (present : Bool) (v : Word) : Word := if present then v &&& mask 3 else 0#32

/-- `Pack` of a mnemonic's opcode, three fields and an immediate (R54). -/
def pack (c : Config) (m : Mnemonic) (fa fb fc imm : Word) : Word :=
  ((c.opcodeMap.code m).setWidth 32 <<< 27)
    ||| (suppliedField (layoutOf c m).hasFieldA fa <<< 24)
    ||| (suppliedField (layoutOf c m).hasFieldB fb <<< 21)
    ||| (suppliedField (layoutOf c m).hasFieldC fc <<< 18)
    ||| (imm &&& mask (layoutOf c m).width)

/-! ## Decoding -/

/-- Why bytes decode to no instruction. -/
inductive DecodeError where
  /-- The opcode belongs to no mnemonic (R63): executing the word is the undefined stop. -/
  | unassignedOpcode (op : BitVec 5)
  /-- Fewer than the four bytes of an instruction word (R46). -/
  | truncated (length : Nat)
  deriving DecidableEq, Repr

/-- A role the handler reads. R50 gives every handler's roles a field, so the default is never taken. -/
def readRole (role : Option (BitVec 3)) : BitVec 3 := role.getD 0#3

/-- The instruction of a mnemonic, its operands taken from the roles and the immediate of `Unpack` (R56, R62). -/
def instrOf (m : Mnemonic) (u : Unpacked) : Instr :=
  match m with
  | .and => .and (readRole u.d) (readRole u.s)
  | .or => .or (readRole u.d) (readRole u.s)
  | .xor => .xor (readRole u.d) (readRole u.s)
  | .not => .not (readRole u.d) (readRole u.s)
  | .add => .add (readRole u.d) (readRole u.s)
  | .adc => .adc (readRole u.d) (readRole u.s)
  | .sub => .sub (readRole u.d) (readRole u.s)
  | .cmp => .cmp (readRole u.d) (readRole u.s)
  | .xchg => .xchg (readRole u.d) (readRole u.s)
  | .mult => .mult (readRole u.d) (readRole u.s)
  | .div => .div (readRole u.d) (readRole u.s)
  | .mov => .mov (readRole u.d) (readRole u.s)
  | .load => .load (readRole u.d) (readRole u.s) (readRole u.m) (u.imm.setWidth 18)
  | .store => .store (readRole u.d) (readRole u.s) (readRole u.m) (u.imm.setWidth 18)
  | .push => .push (readRole u.d)
  | .pop => .pop (readRole u.d)
  | .moviu => .moviu (readRole u.d) (u.imm.setWidth 16)
  | .addi => .addi (readRole u.d) (u.imm.setWidth 24)
  | .addiu => .addiu (readRole u.d) (u.imm.setWidth 24)
  | .cmpiu => .cmpiu (readRole u.d) (u.imm.setWidth 24)
  | .shift => .shift (readRole u.d) (readRole u.m) (u.imm.setWidth 21)
  | .jne => .jne (u.imm.setWidth 27)
  | .jl => .jl (u.imm.setWidth 27)
  | .jsr => .jsr (readRole u.d) (u.imm.setWidth 27)
  | .jmp => .jmp (u.imm.setWidth 27)
  | .jr => .jr (readRole u.d) (u.imm.setWidth 24)
  | .sys => .sys (u.imm.setWidth 27)
  | .swapcc => .swapcc (readRole u.d)
  | .halt => .halt

/-- The instruction a word stands for, or the name of the refusal (R53, R63). -/
def decodeWord (c : Config) (w : Word) : Except DecodeError Instr :=
  match mnemonicOf c.opcodeMap (opField w) with
  | some m => .ok (instrOf m (unpack c w))
  | none => .error (.unassignedOpcode (opField w))

/-- Decoding of any bytes: one instruction word, least significant byte first (R46), and the bytes that follow it. -/
def decode (c : Config) : List Byte → Except DecodeError (Instr × List Byte)
  | b0 :: b1 :: b2 :: b3 :: rest =>
    match decodeWord c (littleEndian [b0, b1, b2, b3]) with
    | .ok i => .ok (i, rest)
    | .error e => .error e
  | bytes => .error (.truncated bytes.length)

/-- The instruction the decoder reads from a word of spec/opcode_table.json (bit 0 the word's least significant bit)
under the reference parameters. -/
def decodeTableWord (nbits w : Nat) : Option Instr :=
  match decode referenceConfig (bytesOf 4 (BitVec.ofNat 32 (w % 2 ^ nbits))) with
  | .ok (i, _) => some i
  | .error _ => none

/-! ## Encoding -/

/-- The word of an instruction: `Pack` of its roles and immediate, zero for every role it does not use (R54, R67). -/
def encodeWord (c : Config) (i : Instr) : Word :=
  match i with
  | .and d s | .or d s | .xor d s | .not d s | .add d s | .adc d s | .sub d s | .cmp d s | .xchg d s | .mult d s
  | .div d s | .mov d s => pack c i.mnemonic (d.setWidth 32) (s.setWidth 32) 0#32 0#32
  | .load d s m imm | .store d s m imm =>
    pack c i.mnemonic (d.setWidth 32) (s.setWidth 32) (m.setWidth 32) (imm.setWidth 32)
  | .push d | .pop d | .swapcc d => pack c i.mnemonic (d.setWidth 32) 0#32 0#32 0#32
  | .moviu d imm => pack c i.mnemonic (d.setWidth 32) 0#32 0#32 (imm.setWidth 32)
  | .addi d imm | .addiu d imm | .cmpiu d imm | .jr d imm =>
    pack c i.mnemonic (d.setWidth 32) 0#32 0#32 (imm.setWidth 32)
  | .shift d m imm => pack c i.mnemonic (d.setWidth 32) (m.setWidth 32) 0#32 (imm.setWidth 32)
  | .jsr d imm => pack c i.mnemonic (d.setWidth 32) 0#32 0#32 (imm.setWidth 32)
  | .jne imm | .jl imm | .jmp imm | .sys imm => pack c i.mnemonic 0#32 0#32 0#32 (imm.setWidth 32)
  | .halt => pack c i.mnemonic 0#32 0#32 0#32 0#32

/-- The instruction's bytes as memory holds them (R46). -/
def encode (c : Config) (i : Instr) : List Byte := bytesOf 4 (encodeWord c i)

/-- The bits of a word that an instruction's handler reads, the opcode among them (R51, R56). Every other bit is
ignored: in L6 the modifier, the immediate and bits 17:6, in L16 s, m and bits 17:16, and all of HALT's immediate. -/
def usedBits : Mnemonic → Word
  | .and | .or | .xor | .not | .add | .adc | .sub | .cmp | .xchg | .mult | .div | .mov => 0xFFE00000#32
  | .push | .pop | .swapcc => 0xFF000000#32
  | .moviu => 0xFF00FFFF#32
  | .load | .store | .addi | .addiu | .cmpiu | .shift | .jne | .jl | .jsr | .jmp | .jr | .sys => 0xFFFFFFFF#32
  | .halt => 0xF8000000#32

/-! ## The immediate encode function and the assembler's operands -/

/-- The result of `ImmEncode`: the field value and the two warnings (R57). -/
structure ImmEncoded where
  value : Word
  warnAlign : Bool
  warnRange : Bool
  deriving DecidableEq, Repr

/-- `v` after step 1 of R57. -/
def immRelative (v : Word) (relative : Bool) (address : Word) : Word := if relative then v - address else v

/-- `v` after step 5 of R57: arithmetic shift when signed, logical when not. -/
def immShifted (v : Word) (signed : Bool) (shift : Nat) : Word := if signed then v.sshiftRight shift else v >>> shift

/-- `ImmEncode(v, size, signed, shift, relative, address)`, its seven steps in the order of R57. -/
def immEncode (v : Word) (size : Nat) (signed : Bool) (shift : Nat) (relative : Bool) (address : Word) : ImmEncoded :=
  let v1 := immRelative v relative address
  let expected := if signed && v1.msb then ~~~(mask size) else 0#32
  let v5 := immShifted v1 signed shift
  { value := v5 &&& mask size
    warnAlign := v1 &&& mask shift != 0#32
    warnRange := v5 &&& ~~~(mask size) != expected }

/-- An immediate-operand descriptor (R61). -/
structure Descriptor where
  shift : Nat
  signed : Bool
  size : Nat
  relative : Bool
  deriving DecidableEq, Repr

/-- The descriptor of each mnemonic with an immediate operand (R61, D27). -/
def descriptorOf (c : Config) : Mnemonic → Option Descriptor
  | .load | .store => some ⟨0, true, 18, false⟩
  | .moviu => some ⟨0, false, 16, false⟩
  | .addi => some ⟨0, true, 24, false⟩
  | .addiu | .cmpiu => some ⟨0, false, 24, false⟩
  | .shift => some ⟨0, false, 21, false⟩
  | .jne | .jl => some ⟨2, true, 27, true⟩
  | .jsr =>
    match c.jsrLayout with
    | .l27 => some ⟨2, true, 27, true⟩
    | .l24 => some ⟨2, true, 24, true⟩
  | .jmp => some ⟨2, true, 27, false⟩
  | .jr => some ⟨2, true, 24, false⟩
  | .sys => some ⟨2, false, 27, false⟩
  | .and | .or | .xor | .not | .add | .adc | .sub | .cmp | .xchg | .mult | .div | .mov | .push | .pop | .swapcc
  | .halt => none

/-- The immediate the assembler packs for an operand: `ImmEncode` by the descriptor, zero without one (R61). -/
def assembleImmediate (c : Config) (m : Mnemonic) (operand address : Word) : ImmEncoded :=
  match descriptorOf c m with
  | some k => immEncode operand k.size k.signed k.shift k.relative address
  | none => ⟨0#32, false, false⟩

/-- The operands of a source line, tokenized: the registers Rd and Rs, the size or shift kind, and the value of the
immediate operand (R67). A form reads only the operands it has. -/
structure AsmOperands where
  rd : BitVec 3
  rs : BitVec 3
  modifier : BitVec 3
  operand : Word
  deriving DecidableEq, Repr

/-- The fields each form packs (R67), as (fa, fb, fc). -/
def assembledFields (m : Mnemonic) (o : AsmOperands) : BitVec 3 × BitVec 3 × BitVec 3 :=
  match m with
  | .and | .or | .xor | .not | .add | .adc | .sub | .cmp | .xchg | .mult | .div | .mov => (o.rd, o.rs, 0#3)
  | .load | .store => (o.rd, o.rs, o.modifier)
  | .push | .pop | .swapcc => (o.rd, 0#3, 0#3)
  | .moviu | .addi | .addiu | .cmpiu => (o.rd, 0#3, 0#3)
  | .shift => (o.rd, o.modifier, 0#3)
  | .jne | .jl | .jmp | .sys | .halt => (0#3, 0#3, 0#3)
  | .jsr | .jr => (o.rd, 0#3, 0#3)

/-- The word of a source line at an address (R61, R67). -/
def assemble (c : Config) (address : Word) (m : Mnemonic) (o : AsmOperands) : Word :=
  let f := assembledFields m o
  pack c m (f.1.setWidth 32) (f.2.1.setWidth 32) (f.2.2.setWidth 32) (assembleImmediate c m o.operand address).value

end Sys2Proof
end

