-- ==== Sys2Proof/Machine/State.lean ====
section
/-! DEFINITION. The state of the machine as plain data (10_state.md R27), the two ways a step can stop, and reset. -/

namespace Sys2Proof.Machine

/-- The condition flags, four separate bits (10_state.md R20). -/
structure Flags where
  lt : Bool
  eq : Bool
  gt : Bool
  c : Bool
  deriving DecidableEq, Repr

/-- The run state `RUN` (10_state.md R21). -/
inductive RunState where
  | running | halted | undefined
  deriving DecidableEq, Repr

/-- `DMEM` (20_memory.md R28) as (address, byte) pairs: addresses strictly rising, no byte 0, and every address not
listed holds 0, as R132 says of memory the image does not cover. -/
abbrev Memory := List Host.Cell

/-- `IMEM` (20_memory.md R29) as (word number, word) pairs in the same form. -/
abbrev ProgramArray := List (Nat × Word)

/-- The state (10_state.md R27), and the parameters the host configured (R77), which no step changes. -/
structure State where
  /-- The parameters of 00_scope.md R6. The model's own field: DESIGN CHOICE (log 1), safe. -/
  config : Config
  /-- `x[0]` to `x[7]` (R15); `x[6]` is SP (R18) and `x[7]` the program counter (R17). -/
  regs : Vector Word 8
  /-- `LT`, `EQ`, `GT`, `C` (R20). -/
  flags : Flags
  /-- `RUN` (R21). -/
  run : RunState
  /-- `FAULT`, the address of the most recent memory fault (R22). -/
  fault : Option Word
  /-- `ICOUNT`, the number of completed steps (R23). -/
  icount : BitVec 64
  /-- `OUT`, the console stream, oldest byte first (R24). -/
  out : List Byte
  /-- `DMEM` (20_memory.md R28). -/
  dmem : Memory
  /-- `IMEM` (20_memory.md R29); the empty list when `HARVARD` is false (log 8). -/
  imem : ProgramArray
  deriving DecidableEq, Repr

/-- Why the machine is stuck: no step happens unless `RUN` is running (40_engine.md R70). A memory fault of the
hardware is no `Fault` here: it is a next state (60_exceptions.md R118). DESIGN CHOICE (log 3). -/
inductive Fault where
  /-- Raised by a step of a machine whose `RUN` is halted (R70, R116). Safe: the machine goes on nowhere. -/
  | noStepWhenHalted
  /-- Raised by a step of a machine whose `RUN` is undefined (R70, R121). Safe: the machine goes on nowhere. -/
  | noStepWhenUndefined
  deriving DecidableEq, Repr

/-- Why an instruction has no meaning in the model. -/
inductive Refusal where
  /-- Raised by an arm of `exec` whose instruction has no meaning yet; no arm raises it. Safe: the run stops there. -/
  | notModelled (mnemonic : String)
  deriving DecidableEq, Repr

/-- The state after reset with no image loaded (70_reset_and_hazards.md R132, R133). -/
def State.resetWith (c : Config) : State where
  config := c
  regs := resetRegisters
  flags := ⟨false, false, false, false⟩
  run := .running
  fault := none
  icount := 0
  out := []
  dmem := []
  imem := []

/-- The state after reset under the reference parameters (DESIGN CHOICE, log 2), memory all zero. -/
def State.reset : State := State.resetWith referenceConfig

end Sys2Proof.Machine
end

