-- ==== Sys2Proof/Machine/Ops.lean ====
section
/-! DEFINITION. The named operations over registers and memory, and how a step ends: retiring an instruction, the memory
fault (60_exceptions.md R118) and the undefined stop (R121). The machine has no trap and no return from one
(R124, R125). -/

namespace Sys2Proof.Machine

/-! ## Registers -/

/-- `PC` is `x[7]` (10_state.md R17). -/
abbrev pcReg : RegIdx := 7#3

/-- `SP` is `x[6]` (R18). -/
abbrev spReg : RegIdx := 6#3

/-- `x[i]` (00_scope.md R10). -/
def State.readReg (s : State) (i : RegIdx) : Word := s.regs[i.toNat]'i.toNat_lt

/-- `x[i] <- v`. No register is hardwired (10_state.md R16). -/
def State.writeReg (s : State) (i : RegIdx) (v : Word) : State := { s with regs := s.regs.set i.toNat v i.toNat_lt }

/-- The program counter, the cell `x[7]` (R17). -/
def State.pc (s : State) : Word := s.readReg pcReg

/-- The stack pointer, the cell `x[6]` (R18). -/
def State.sp (s : State) : Word := s.readReg spReg

def State.setFlags (s : State) (f : Flags) : State := { s with flags := f }
def State.setRun (s : State) (r : RunState) : State := { s with run := r }
def State.setFault (s : State) (a : Word) : State := { s with fault := some a }
def State.setDmem (s : State) (m : Memory) : State := { s with dmem := m }
def State.setImem (s : State) (m : ProgramArray) : State := { s with imem := m }

/-- Append one byte to the console stream (20_memory.md R37). -/
def State.putByte (s : State) (b : Byte) : State := { s with out := s.out ++ [b] }

/-- One more completed step, modulo 2^64 (10_state.md R23). -/
def State.countStep (s : State) : State := { s with icount := s.icount + 1 }

/-! ## Sparse memory in canonical form -/

/-- What an address no entry lists holds: 0, "remaining memory stays zero" (70_reset_and_hazards.md R132, R134). -/
def unlisted {w : Nat} : BitVec w := 0#w

/-- The value at a key. -/
def sparseRead {w : Nat} : List (Nat × BitVec w) → Nat → BitVec w
  | [], _ => unlisted
  | (k, v) :: rest, a => if k = a then v else sparseRead rest a

/-- Drop every entry of a key. -/
def sparseErase {w : Nat} (m : List (Nat × BitVec w)) (a : Nat) : List (Nat × BitVec w) :=
  m.filter fun cell => cell.1 ≠ a

/-- Put an entry before the first larger key. -/
def sparseInsert {w : Nat} : List (Nat × BitVec w) → Nat → BitVec w → List (Nat × BitVec w)
  | [], a, v => [(a, v)]
  | (k, x) :: rest, a, v => if a < k then (a, v) :: (k, x) :: rest else (k, x) :: sparseInsert rest a v

/-- Write a key; writing what an unlisted key holds leaves no entry. -/
def sparseWrite {w : Nat} (m : List (Nat × BitVec w)) (a : Nat) (v : BitVec w) : List (Nat × BitVec w) :=
  if v = unlisted then sparseErase m a else sparseInsert (sparseErase m a) a v

/-- The canonical form: keys strictly rising, no entry equal to what an unlisted key holds. -/
def sparseWf {w : Nat} (m : List (Nat × BitVec w)) : Bool :=
  decide ((m.map Prod.fst).Pairwise (· < ·)) && m.all fun cell => cell.2 != unlisted

/-- The entries of consecutive values from a key on. -/
def sparseFrom {w : Nat} : Nat → List (BitVec w) → List (Nat × BitVec w)
  | _, [] => []
  | k, v :: vs => if v = unlisted then sparseFrom (k + 1) vs else (k, v) :: sparseFrom (k + 1) vs

/-- The byte of `DMEM` at an address. -/
def Memory.read (m : Memory) (a : Nat) : Byte := sparseRead m a

/-- `DMEM[a] <- b`. -/
def Memory.write (m : Memory) (a : Nat) (b : Byte) : Memory := sparseWrite m a b

/-- `DMEM` is in canonical form. -/
def Memory.wf (m : Memory) : Bool := sparseWf m

/-- The bytes at `a`, `a+1`, …, `a+n-1`. -/
def Memory.readBytes (m : Memory) (a : Nat) : Nat → List Byte
  | 0 => []
  | n + 1 => m.read a :: m.readBytes (a + 1) n

/-- Write consecutive bytes from `a` on. -/
def Memory.writeBytes (m : Memory) (a : Nat) : List Byte → Memory
  | [] => m
  | b :: bs => (m.write a b).writeBytes (a + 1) bs

/-- One byte of `DMEM`. -/
def State.byte (s : State) (a : Nat) : Byte := s.dmem.read a

/-! ## The memory interface -/

/-- The widths of a data access (20_memory.md R35). -/
inductive Size where
  | byte | half | word
  deriving DecidableEq, Repr

/-- The number of bytes. -/
def Size.bytes : Size → Nat
  | .byte => 1
  | .half => 2
  | .word => 4

/-- An access of `n` bytes at `a` lies in `DMEM`, in exact arithmetic (R30). -/
def inRange (c : Config) (a : Word) (n : Nat) : Bool := decide (a.toNat + n ≤ c.memSize)

/-- `MemRead(a, n)`: the value, or the address of the memory fault (R35, D12). -/
def State.memRead (s : State) (a : Word) (n : Size) : Except Word Word :=
  if inRange s.config a n.bytes then .ok (littleEndian (s.dmem.readBytes a.toNat n.bytes)) else .error a

/-- `MemWrite(a, n, v)`: the state after the write or the console store, or the address of the memory fault (R36, R37). -/
def State.memWrite (s : State) (a : Word) (n : Size) (v : Word) : Except Word State :=
  if n = .byte ∧ a = s.config.consoleAddr then .ok (s.putByte (v.setWidth 8))
  else if inRange s.config a n.bytes then .ok (s.setDmem (s.dmem.writeBytes a.toNat (bytesOf n.bytes v)))
  else .error a

/-- A fetch at `a` succeeds (R38). -/
def State.canFetch (s : State) (a : Word) : Bool :=
  if s.config.harvard then decide (a.toNat % 4 = 0 ∧ a.toNat / 4 < s.config.imemWords)
  else inRange s.config a 4

/-- The word a fetch at `a` reads when it succeeds (R38). -/
def State.fetchedWord (s : State) (a : Word) : Word :=
  if s.config.harvard then sparseRead s.imem (a.toNat / 4) else littleEndian (s.dmem.readBytes a.toNat 4)

/-- `Fetch(a)`: the instruction word, or the address of the memory fault (R38). -/
def State.fetch (s : State) (a : Word) : Except Word Word :=
  if s.canFetch a then .ok (s.fetchedWord a) else .error a

/-! ## How a step ends -/

/-- What stops an instruction without a meaning (60_exceptions.md R117). -/
inductive UndefinedReason where
  | opcode | size | shiftKind | divide
  deriving DecidableEq, Repr

/-- The outcome of a handler run on a copy of the state (40_engine.md R71). -/
inductive HandlerOutcome where
  /-- The handler completed and left this copy. -/
  | done (copy : State)
  /-- `raise MemoryFault(f)` (60_exceptions.md R118). -/
  | memoryFault (f : Word)
  /-- `stop Undefined(reason)` (R121). -/
  | undefined (reason : UndefinedReason)
  deriving DecidableEq, Repr

/-- The handlers that set the PC themselves (40_engine.md R74). -/
def isControl (m : Mnemonic) : Bool :=
  match m with
  | .jne | .jl | .jsr | .jmp | .jr | .sys => true
  | .and | .or | .xor | .not | .add | .adc | .sub | .cmp | .xchg | .mult | .div | .mov | .load | .store | .push | .pop
  | .moviu | .addi | .addiu | .cmpiu | .shift | .swapcc | .halt => false

/-- `Advance(mnemonic, a)`; `writes` are the registers the handler wrote (10_state.md R19), which the source leaves
open whether the 4 is added after, when `x[7]` is among them (40_engine.md R74, D17; log 9). -/
def State.advance (s : State) (m : Mnemonic) (writes : List RegIdx) (a : Word) : State :=
  if isControl m then s
  else if s.config.r7WriteAdvance then s.writeReg pcReg (s.readReg pcReg + 4#32)
  else if pcReg ∈ writes then s
  else s.writeReg pcReg (a + 4#32)

/-- `FaultStep(f)`, the taking of a memory fault: the failing address is recorded, and the machine halts when
`HALT_ON_FAULT` says so; nothing else changes (60_exceptions.md R118). -/
def State.faultStep (s : State) (f : Word) : State :=
  if s.config.haltOnFault then (s.setFault f).setRun .halted else s.setFault f

/-- The undefined stop: `RUN` becomes undefined and nothing else changes (R121). -/
def State.undefinedStop (s : State) : State := s.setRun .undefined

/-- The end of a step whose instruction was dispatched (40_engine.md R71): the copy is committed, the PC advanced and
the step counted, or the copy is discarded (R73). `before` is the state the instruction began in. -/
def endStep (before : State) (m : Mnemonic) (writes : List RegIdx) (outcome : HandlerOutcome) :
    Host.Outcome State Fault Refusal :=
  match outcome with
  | .done copy => .next (copy.advance m writes before.pc).countStep
  | .memoryFault f => .next (before.faultStep f)
  | .undefined _ => .next before.undefinedStop

end Sys2Proof.Machine
end

