-- ==== Sys2Proof/Machine/Operands.lean ====
section
/-! DEFINITION. Every operand form: the immediates of 30_encoding.md R56, the effective address (42_load_store.md R95),
the size modifier (R96), the widening of a load (R97) and the stack addresses (R99). -/

namespace Sys2Proof.Machine

/-- `off` of LOAD and STORE (30_encoding.md R56). -/
def offsetOf (imm : BitVec 18) : Word := sext 18 (imm.setWidth 32)

/-- `upper` of MOVIU. -/
def upperOf (imm : BitVec 16) : Word := imm.setWidth 32 <<< 16

/-- `k` of ADDI. -/
def signedImmediate (imm : BitVec 24) : Word := sext 24 (imm.setWidth 32)

/-- `k` of ADDIU. -/
def unsignedImmediate (imm : BitVec 24) : Word := zext 24 (imm.setWidth 32)

/-- `amt` of SHIFT: the low five bits of the immediate. -/
def shiftAmount (imm : BitVec 21) : Nat := (imm.extractLsb' 0 5).toNat

/-- `disp` of JNE, JL and JMP, and of JSR under `JSR_LAYOUT = L27`. -/
def displacement27 (imm : BitVec 27) : Word := sext 27 (imm.setWidth 32) <<< 2

/-- `disp` of JR. -/
def displacement24 (imm : BitVec 24) : Word := sext 24 (imm.setWidth 32) <<< 2

/-- `disp` of JSR, by `JSR_LAYOUT` (30_encoding.md R52, R56). -/
def jsrDisplacement (layout : JsrLayout) (imm : BitVec 27) : Word :=
  match layout with
  | .l27 => displacement27 imm
  | .l24 => displacement24 (imm.setWidth 24)

/-- `vec` of SYS. -/
def vectorAddress (imm : BitVec 27) : Word := zext 27 (imm.setWidth 32) <<< 2

/-- The access size a LOAD or STORE modifier names; 0, 3, 5, 6 and 7 are reserved (42_load_store.md R96). -/
def accessSize (m : BitVec 3) : Option Size :=
  if m = 1#3 then some .byte else if m = 2#3 then some .half else if m = 4#3 then some .word else none

/-- The effective address of LOAD and STORE (R95). -/
def State.effectiveAddress (st : State) (s : RegIdx) (imm : BitVec 18) : Word := st.readReg s + offsetOf imm

/-- The widening of a loaded byte or halfword, by `LOAD_EXT`; a word is kept (R97). -/
def widen (ext : LoadExt) (n : Size) (v : Word) : Word :=
  match n, ext with
  | .word, _ => v
  | .byte, .zero => zext 8 v
  | .byte, .sign => sext 8 v
  | .half, .zero => zext 16 v
  | .half, .sign => sext 16 v

/-- The address PUSH and SYS write (R99). -/
def State.pushAddress (st : State) : Word :=
  match st.config.stackMode with
  | .fullDescending => st.sp - 4#32
  | .emptyDescending => st.sp

/-- The address POP reads (R99). -/
def State.popAddress (st : State) : Word :=
  match st.config.stackMode with
  | .fullDescending => st.sp
  | .emptyDescending => st.sp + 4#32

/-- The shared push of PUSH and SYS: a word store, and SP lowered by 4 if it did not fault (R100, 44_control.md R114). -/
def State.pushWord (st : State) (v : Word) : Except Word State :=
  match st.memWrite st.pushAddress .word v with
  | .ok stored => .ok (stored.writeReg spReg (stored.sp - 4#32))
  | .error f => .error f

end Sys2Proof.Machine
end

