-- ==== Sys2Proof/Machine/Control.lean ====
section
/-! DEFINITION. The control transfers (44_control.md): each is its handler (R109 to R114), which sets the PC itself, and the
end of the step around it. No target is checked (R107). -/

namespace Sys2Proof.Machine

/-- JNE and JL share the conditional branch (R109, R110). -/
def branchHandler (taken : Bool) (imm : BitVec 27) (st : State) : HandlerOutcome :=
  .done (st.writeReg pcReg (if taken then st.pc + displacement27 imm else st.pc + 4#32))

/-- The handler of JNE (R109). -/
def handleJne (imm : BitVec 27) (st : State) : HandlerOutcome :=
  branchHandler (!st.flags.eq) imm st

/-- JNE. -/
def execJne (imm : BitVec 27) (st : State) : Host.Outcome State Fault Refusal :=
  endStep st .jne [pcReg] (handleJne imm st)

/-- The handler of JL (R110). -/
def handleJl (imm : BitVec 27) (st : State) : HandlerOutcome :=
  branchHandler st.flags.lt imm st

/-- JL. -/
def execJl (imm : BitVec 27) (st : State) : Host.Outcome State Fault Refusal :=
  endStep st .jl [pcReg] (handleJl imm st)

/-- The handler of JSR (R111): the link is written first, and the PC is read after it. -/
def handleJsr (d : RegIdx) (imm : BitVec 27) (st : State) : HandlerOutcome :=
  .done ((st.writeReg d (st.pc + 4#32)).writeReg pcReg
    ((st.writeReg d (st.pc + 4#32)).pc + jsrDisplacement st.config.jsrLayout imm))

/-- JSR. -/
def execJsr (d : RegIdx) (imm : BitVec 27) (st : State) : Host.Outcome State Fault Refusal :=
  endStep st .jsr [d, pcReg] (handleJsr d imm st)

/-- The handler of JMP (R112): absolute. -/
def handleJmp (imm : BitVec 27) (st : State) : HandlerOutcome :=
  .done (st.writeReg pcReg (displacement27 imm))

/-- JMP. -/
def execJmp (imm : BitVec 27) (st : State) : Host.Outcome State Fault Refusal :=
  endStep st .jmp [pcReg] (handleJmp imm st)

/-- The handler of JR (R113). -/
def handleJr (d : RegIdx) (imm : BitVec 24) (st : State) : HandlerOutcome :=
  .done (st.writeReg pcReg (st.readReg d + displacement24 imm))

/-- JR. -/
def execJr (d : RegIdx) (imm : BitVec 24) (st : State) : Host.Outcome State Fault Refusal :=
  endStep st .jr [pcReg] (handleJr d imm st)

/-- The handler of SYS (R114): the address of the SYS itself is pushed. -/
def handleSys (imm : BitVec 27) (st : State) : HandlerOutcome :=
  match st.pushWord st.pc with
  | .ok pushed => .done (pushed.writeReg pcReg (vectorAddress imm))
  | .error f => .memoryFault f

/-- SYS. -/
def execSys (imm : BitVec 27) (st : State) : Host.Outcome State Fault Refusal :=
  endStep st .sys [spReg, pcReg] (handleSys imm st)

end Sys2Proof.Machine
end

