-- ==== Sys2Proof/Machine/Flags.lean ====
section
/-! DEFINITION. Every flag computation (10_state.md R20). -/

namespace Sys2Proof.Machine

/-- The flags with `C` written (41_register_alu.md R82). -/
def Flags.withCarry (f : Flags) (c : Bool) : Flags := { f with c := c }

/-- The exact unsigned sum of two registers and a carry (41_register_alu.md R87, R88). -/
def exactSum (x y : Word) (carryIn : Bool) : Nat := x.toNat + y.toNat + carryIn.toNat

/-- The carry out of bit 31 (R82). -/
def carryOut (x y : Word) (carryIn : Bool) : Bool := decide (2 ^ 32 ≤ exactSum x y carryIn)

/-- `LT`, `EQ`, `GT` of two integers; `C` is kept (R90, 43_immediate.md R105). -/
def Flags.ofCompare (f : Flags) (x y : Int) : Flags :=
  { lt := decide (x < y), eq := decide (x = y), gt := decide (y < x), c := f.c }

/-- CMP's flags: a signed comparison (41_register_alu.md R90). -/
def Flags.compareSigned (f : Flags) (x y : Word) : Flags := f.ofCompare x.toInt y.toInt

/-- CMPIU's flags: an unsigned comparison of the low 24 bits with the immediate (43_immediate.md R105). -/
def Flags.compareLow24 (f : Flags) (x : Word) (imm : BitVec 24) : Flags :=
  f.ofCompare (x.extractLsb' 0 24).toNat imm.toNat

/-- The packed flags `P = EQ | GT << 1 | LT << 2 | C << 3` (10_state.md R20). -/
def Flags.packed (f : Flags) : Word :=
  (BitVec.ofBool f.eq).setWidth 32 ||| ((BitVec.ofBool f.gt).setWidth 32 <<< 1)
    ||| ((BitVec.ofBool f.lt).setWidth 32 <<< 2) ||| ((BitVec.ofBool f.c).setWidth 32 <<< 3)

/-- The flags that a value's low four bits stand for (45_system.md R115). -/
def flagsOfBits (v : Word) : Flags :=
  { eq := v.getLsbD 0, gt := v.getLsbD 1, lt := v.getLsbD 2, c := v.getLsbD 3 }

end Sys2Proof.Machine
end

