-- ==== Sys2Proof/Machine/Immediate.lean ====
section
/-! DEFINITION. The immediate instructions (43_immediate.md): each is its handler (R102 to R106) and the end of the step
around it. -/

namespace Sys2Proof.Machine

/-- The handler of MOVIU (R102). -/
def handleMoviu (d : RegIdx) (imm : BitVec 16) (st : State) : HandlerOutcome :=
  .done (st.writeReg d (upperOf imm))

/-- MOVIU. -/
def execMoviu (d : RegIdx) (imm : BitVec 16) (st : State) : Host.Outcome State Fault Refusal :=
  endStep st .moviu [d] (handleMoviu d imm st)

/-- The handler of ADDI (R103). -/
def handleAddi (d : RegIdx) (imm : BitVec 24) (st : State) : HandlerOutcome :=
  .done (st.writeReg d (st.readReg d + signedImmediate imm))

/-- ADDI. -/
def execAddi (d : RegIdx) (imm : BitVec 24) (st : State) : Host.Outcome State Fault Refusal :=
  endStep st .addi [d] (handleAddi d imm st)

/-- The handler of ADDIU (R104). -/
def handleAddiu (d : RegIdx) (imm : BitVec 24) (st : State) : HandlerOutcome :=
  .done (st.writeReg d (st.readReg d + unsignedImmediate imm))

/-- ADDIU. -/
def execAddiu (d : RegIdx) (imm : BitVec 24) (st : State) : Host.Outcome State Fault Refusal :=
  endStep st .addiu [d] (handleAddiu d imm st)

/-- The handler of CMPIU (R105). -/
def handleCmpiu (d : RegIdx) (imm : BitVec 24) (st : State) : HandlerOutcome :=
  .done (st.setFlags (st.flags.compareLow24 (st.readReg d) imm))

/-- CMPIU. -/
def execCmpiu (d : RegIdx) (imm : BitVec 24) (st : State) : Host.Outcome State Fault Refusal :=
  endStep st .cmpiu [] (handleCmpiu d imm st)

/-- The shifted value by kind (R106, D24). Kinds 4 to 7 are reserved. Arithmetic-left is logical-left: PRESUMED (log 18),
the spec's own words "from general knowledge". -/
def shifted (kind : BitVec 3) (v : Word) (n : Nat) : Option Word :=
  if kind = 0#3 then some (v <<< n)
  else if kind = 1#3 then some (v >>> n)
  else if kind = 2#3 then some (v <<< n)
  else if kind = 3#3 then some (v.sshiftRight n)
  else none

/-- The handler of SHIFT (R106). -/
def handleShift (d : RegIdx) (m : BitVec 3) (imm : BitVec 21) (st : State) : HandlerOutcome :=
  match shifted m (st.readReg d) (shiftAmount imm) with
  | some v => .done (st.writeReg d v)
  | none => .undefined .shiftKind

/-- SHIFT. -/
def execShift (d : RegIdx) (m : BitVec 3) (imm : BitVec 21) (st : State) : Host.Outcome State Fault Refusal :=
  endStep st .shift [d] (handleShift d m imm st)

end Sys2Proof.Machine
end

