-- ==== Sys2Proof/Machine/LoadStore.lean ====
section
/-! DEFINITION. The load, store and stack instructions (42_load_store.md): each is its handler (R97 to R101) and the end of
the step around it. -/

namespace Sys2Proof.Machine

/-- The handler of LOAD (R97): the base is read before the destination is written. -/
def handleLoad (d s : RegIdx) (m : BitVec 3) (imm : BitVec 18) (st : State) : HandlerOutcome :=
  match accessSize m with
  | none => .undefined .size
  | some n =>
    match st.memRead (st.effectiveAddress s imm) n with
    | .ok v => .done (st.writeReg d (widen st.config.loadExt n v))
    | .error f => .memoryFault f

/-- LOAD. -/
def execLoad (d s : RegIdx) (m : BitVec 3) (imm : BitVec 18) (st : State) : Host.Outcome State Fault Refusal :=
  endStep st .load [d] (handleLoad d s m imm st)

/-- The handler of STORE (R98). -/
def handleStore (d s : RegIdx) (m : BitVec 3) (imm : BitVec 18) (st : State) : HandlerOutcome :=
  match accessSize m with
  | none => .undefined .size
  | some n =>
    match st.memWrite (st.effectiveAddress s imm) n (st.readReg d) with
    | .ok stored => .done stored
    | .error f => .memoryFault f

/-- STORE. -/
def execStore (d s : RegIdx) (m : BitVec 3) (imm : BitVec 18) (st : State) : Host.Outcome State Fault Refusal :=
  endStep st .store [] (handleStore d s m imm st)

/-- The handler of PUSH (R100): the register is read before SP changes. -/
def handlePush (d : RegIdx) (st : State) : HandlerOutcome :=
  match st.pushWord (st.readReg d) with
  | .ok pushed => .done pushed
  | .error f => .memoryFault f

/-- PUSH. -/
def execPush (d : RegIdx) (st : State) : Host.Outcome State Fault Refusal :=
  endStep st .push [spReg] (handlePush d st)

/-- The handler of POP (R101): the register is written first, then 4 is added to SP. -/
def handlePop (d : RegIdx) (st : State) : HandlerOutcome :=
  match st.memRead st.popAddress .word with
  | .ok v => .done ((st.writeReg d v).writeReg spReg ((st.writeReg d v).sp + 4#32))
  | .error f => .memoryFault f

/-- POP. -/
def execPop (d : RegIdx) (st : State) : Host.Outcome State Fault Refusal :=
  endStep st .pop [d, spReg] (handlePop d st)

end Sys2Proof.Machine
end

