-- ==== Sys2Proof/Machine/RegisterAlu.lean ====
section
/-! DEFINITION. The register ALU instructions (41_register_alu.md): each is its handler (R83 to R94) and the end of the
step around it, with the registers it writes (10_state.md R19). -/

namespace Sys2Proof.Machine

/-- The handler of AND (R83). -/
def handleAnd (d s : RegIdx) (st : State) : HandlerOutcome :=
  .done (st.writeReg d (st.readReg d &&& st.readReg s))

/-- AND. -/
def execAnd (d s : RegIdx) (st : State) : Host.Outcome State Fault Refusal :=
  endStep st .and [d] (handleAnd d s st)

/-- The handler of OR (R84). -/
def handleOr (d s : RegIdx) (st : State) : HandlerOutcome :=
  .done (st.writeReg d (st.readReg d ||| st.readReg s))

/-- OR. -/
def execOr (d s : RegIdx) (st : State) : Host.Outcome State Fault Refusal :=
  endStep st .or [d] (handleOr d s st)

/-- The handler of XOR (R85). -/
def handleXor (d s : RegIdx) (st : State) : HandlerOutcome :=
  .done (st.writeReg d (st.readReg d ^^^ st.readReg s))

/-- XOR. -/
def execXor (d s : RegIdx) (st : State) : Host.Outcome State Fault Refusal :=
  endStep st .xor [d] (handleXor d s st)

/-- The handler of NOT (R86). -/
def handleNot (d s : RegIdx) (st : State) : HandlerOutcome :=
  .done (st.writeReg d (~~~(st.readReg s)))

/-- NOT. -/
def execNot (d s : RegIdx) (st : State) : Host.Outcome State Fault Refusal :=
  endStep st .not [d] (handleNot d s st)

/-- ADD and ADC share the sum modulo 2^32 and the carry out (R87, R88). -/
def sumHandler (d s : RegIdx) (carryIn : Bool) (st : State) : HandlerOutcome :=
  .done ((st.setFlags (st.flags.withCarry (carryOut (st.readReg d) (st.readReg s) carryIn))).writeReg d
    (BitVec.ofNat 32 (exactSum (st.readReg d) (st.readReg s) carryIn)))

/-- The handler of ADD (R87). -/
def handleAdd (d s : RegIdx) (st : State) : HandlerOutcome :=
  sumHandler d s false st

/-- ADD. -/
def execAdd (d s : RegIdx) (st : State) : Host.Outcome State Fault Refusal :=
  endStep st .add [d] (handleAdd d s st)

/-- The handler of ADC (R88). -/
def handleAdc (d s : RegIdx) (st : State) : HandlerOutcome :=
  sumHandler d s st.flags.c st

/-- ADC. -/
def execAdc (d s : RegIdx) (st : State) : Host.Outcome State Fault Refusal :=
  endStep st .adc [d] (handleAdc d s st)

/-- The handler of SUB (R89). -/
def handleSub (d s : RegIdx) (st : State) : HandlerOutcome :=
  .done (st.writeReg d (st.readReg d - st.readReg s))

/-- SUB. -/
def execSub (d s : RegIdx) (st : State) : Host.Outcome State Fault Refusal :=
  endStep st .sub [d] (handleSub d s st)

/-- The handler of CMP (R90). -/
def handleCmp (d s : RegIdx) (st : State) : HandlerOutcome :=
  .done (st.setFlags (st.flags.compareSigned (st.readReg d) (st.readReg s)))

/-- CMP. -/
def execCmp (d s : RegIdx) (st : State) : Host.Outcome State Fault Refusal :=
  endStep st .cmp [] (handleCmp d s st)

/-- The handler of XCHG (R91). -/
def handleXchg (d s : RegIdx) (st : State) : HandlerOutcome :=
  .done ((st.writeReg d (st.readReg s)).writeReg s (st.readReg d))

/-- XCHG. -/
def execXchg (d s : RegIdx) (st : State) : Host.Outcome State Fault Refusal :=
  endStep st .xchg [d, s] (handleXchg d s st)

/-- The exact signed product of MULT, as 64 bits (R92). -/
def signedProduct (x y : Word) : BitVec 64 := BitVec.ofInt 64 (x.toInt * y.toInt)

/-- The handler of MULT (R92): the low half is written second. -/
def handleMult (d s : RegIdx) (st : State) : HandlerOutcome :=
  .done ((st.writeReg d ((signedProduct (st.readReg d) (st.readReg s)).extractLsb' 32 32)).writeReg s
    ((signedProduct (st.readReg d) (st.readReg s)).extractLsb' 0 32))

/-- MULT. -/
def execMult (d s : RegIdx) (st : State) : Host.Outcome State Fault Refusal :=
  endStep st .mult [d, s] (handleMult d s st)

/-- The operands for which DIV has no defined result (R93). -/
def divUndefined (n q : Word) : Bool := q == 0#32 || (n == 0x80000000#32 && q == 0xFFFFFFFF#32)

/-- DIV's quotient, truncated toward zero (R93). -/
def quotient (n q : Word) : Int := n.toInt.tdiv q.toInt

/-- DIV's remainder `n - q * q_den` (R93). -/
def remainder (n q : Word) : Int := n.toInt - quotient n q * q.toInt

/-- The handler of DIV (R93): the remainder is written second. -/
def handleDiv (d s : RegIdx) (st : State) : HandlerOutcome :=
  if divUndefined (st.readReg d) (st.readReg s) then .undefined .divide
  else .done ((st.writeReg d (BitVec.ofInt 32 (quotient (st.readReg d) (st.readReg s)))).writeReg s
    (BitVec.ofInt 32 (remainder (st.readReg d) (st.readReg s))))

/-- DIV. -/
def execDiv (d s : RegIdx) (st : State) : Host.Outcome State Fault Refusal :=
  endStep st .div [d, s] (handleDiv d s st)

/-- The handler of MOV (R94). -/
def handleMov (d s : RegIdx) (st : State) : HandlerOutcome :=
  .done (st.writeReg d (st.readReg s))

/-- MOV. -/
def execMov (d s : RegIdx) (st : State) : Host.Outcome State Fault Refusal :=
  endStep st .mov [d] (handleMov d s st)

end Sys2Proof.Machine
end

