-- ==== Sys2Proof/Machine/System.lean ====
section
/-! DEFINITION. Flag exchange and halt (45_system.md): each is its handler (R115, R116) and the end of the step around it. -/

namespace Sys2Proof.Machine

/-- The handler of SWAPCC (R115): bits 31:4 of the register are kept. -/
def handleSwapcc (d : RegIdx) (st : State) : HandlerOutcome :=
  .done ((st.setFlags (flagsOfBits (st.readReg d))).writeReg d
    ((st.readReg d &&& 0xFFFFFFF0#32) ||| st.flags.packed))

/-- SWAPCC. -/
def execSwapcc (d : RegIdx) (st : State) : Host.Outcome State Fault Refusal :=
  endStep st .swapcc [d] (handleSwapcc d st)

/-- The handler of HALT (R116): the PC still advances. -/
def handleHalt (st : State) : HandlerOutcome :=
  .done (st.setRun .halted)

/-- HALT. -/
def execHalt (st : State) : Host.Outcome State Fault Refusal :=
  endStep st .halt [] (handleHalt st)

end Sys2Proof.Machine
end

