-- ==== Sys2Proof/Machine/Dispatch.lean ====
section
/-! DEFINITION. The opcode dispatcher: one exhaustive selection over the closed set of instructions (40_engine.md R72). -/

namespace Sys2Proof.Machine

def exec (i : Instr) (st : State) : Host.Outcome State Fault Refusal :=
  match i with
  | .and d s => Sys2Proof.Machine.execAnd d s st
  | .or d s => Sys2Proof.Machine.execOr d s st
  | .xor d s => Sys2Proof.Machine.execXor d s st
  | .not d s => Sys2Proof.Machine.execNot d s st
  | .add d s => Sys2Proof.Machine.execAdd d s st
  | .adc d s => Sys2Proof.Machine.execAdc d s st
  | .sub d s => Sys2Proof.Machine.execSub d s st
  | .cmp d s => Sys2Proof.Machine.execCmp d s st
  | .xchg d s => Sys2Proof.Machine.execXchg d s st
  | .mult d s => Sys2Proof.Machine.execMult d s st
  | .div d s => Sys2Proof.Machine.execDiv d s st
  | .mov d s => Sys2Proof.Machine.execMov d s st
  | .load d s m imm => Sys2Proof.Machine.execLoad d s m imm st
  | .store d s m imm => Sys2Proof.Machine.execStore d s m imm st
  | .push d => Sys2Proof.Machine.execPush d st
  | .pop d => Sys2Proof.Machine.execPop d st
  | .moviu d imm => Sys2Proof.Machine.execMoviu d imm st
  | .addi d imm => Sys2Proof.Machine.execAddi d imm st
  | .addiu d imm => Sys2Proof.Machine.execAddiu d imm st
  | .cmpiu d imm => Sys2Proof.Machine.execCmpiu d imm st
  | .shift d m imm => Sys2Proof.Machine.execShift d m imm st
  | .jne imm => Sys2Proof.Machine.execJne imm st
  | .jl imm => Sys2Proof.Machine.execJl imm st
  | .jsr d imm => Sys2Proof.Machine.execJsr d imm st
  | .jmp imm => Sys2Proof.Machine.execJmp imm st
  | .jr d imm => Sys2Proof.Machine.execJr d imm st
  | .sys imm => Sys2Proof.Machine.execSys imm st
  | .swapcc d => Sys2Proof.Machine.execSwapcc d st
  | .halt => Sys2Proof.Machine.execHalt st

end Sys2Proof.Machine
end

