-- ==== Sys2Proof/Machine/Fetch.lean ====
section
/-! DEFINITION. One turn of the fetch-decode-execute loop around an execution function, and the placing of an
instruction where it fetches next. -/

namespace Sys2Proof.Machine

/-- `Step()` with `RUN = running` (40_engine.md R71): fetch, decode, dispatch. A faulting fetch is `FaultStep`, an
unassigned opcode the undefined stop; the order of checks is 60_exceptions.md R122's. -/
def runningStep (execute : Instr → State → Host.Outcome State Fault Refusal) (s : State) :
    Host.Outcome State Fault Refusal :=
  match s.fetch s.pc with
  | .error f => .next (s.faultStep f)
  | .ok w =>
    match decodeWord s.config w with
    | .error _ => .next s.undefinedStop
    | .ok i => execute i s

/-- `Step()`: it happens only when `RUN = running` (R70). -/
def guardedStep (execute : Instr → State → Host.Outcome State Fault Refusal) (s : State) :
    Host.Outcome State Fault Refusal :=
  match s.run with
  | .running => runningStep execute s
  | .halted => .fault .noStepWhenHalted
  | .undefined => .fault .noStepWhenUndefined

/-- The state with a word where the next step fetches: at the PC, in `IMEM` when `HARVARD` is true and in `DMEM` else
(20_memory.md R38). It stands for the host's image load (70_reset_and_hazards.md R134; log 6). -/
def State.placeWord (s : State) (w : Word) : State :=
  if s.config.harvard then s.setImem (sparseWrite s.imem (s.pc.toNat / 4) w)
  else s.setDmem (s.dmem.writeBytes s.pc.toNat (bytesOf 4 w))

end Sys2Proof.Machine
end

