-- ==== Sys2Proof/Machine/HostInterface.lean ====
section
/-! DEFINITION. What the host does to the machine besides running it (40_engine.md R77): loading an image and reading the
summary. -/

namespace Sys2Proof.Machine

/-- Why an image is refused and no run starts (70_reset_and_hazards.md R134, D45). -/
inductive ImageError where
  /-- The length is no multiple of 4. -/
  | partialWord
  /-- The image is longer than `MEM_SIZE` bytes. -/
  | exceedsMemory
  /-- In Harvard mode, the image is longer than `4 × IMEM_WORDS` bytes. -/
  | exceedsProgramArray
  deriving DecidableEq, Repr

/-- The words of an image, four bytes each, least significant first (R134). -/
def imageWords : List Byte → List Word
  | b0 :: b1 :: b2 :: b3 :: rest => littleEndian [b0, b1, b2, b3] :: imageWords rest
  | _ => []

/-- Reset and load (R132 to R134): the image at address 0 of `DMEM` and, in Harvard mode, its words in `IMEM` too. -/
def loadImage (c : Config) (image : List Byte) : Except ImageError State :=
  if image.length % 4 ≠ 0 then .error .partialWord
  else if c.memSize < image.length then .error .exceedsMemory
  else if c.harvard ∧ 4 * c.imemWords < image.length then .error .exceedsProgramArray
  else .ok (((State.resetWith c).setDmem (sparseFrom 0 image)).setImem
    (if c.harvard then sparseFrom 0 (imageWords image) else []))

/-- What the host reads between steps (40_engine.md R79), read-only (R80); `DMEM` is read beside it. -/
structure Summary where
  regs : Vector Word 8
  flags : Flags
  run : RunState
  fault : Option Word
  icount : BitVec 64
  out : List Byte
  deriving DecidableEq, Repr

/-- The execution summary (R79). -/
def State.summary (s : State) : Summary where
  regs := s.regs
  flags := s.flags
  run := s.run
  fault := s.fault
  icount := s.icount
  out := s.out

end Sys2Proof.Machine
end

