-- ==== Sys2Proof/Safety.lean ====
section
/-! DEFINITION. The terms claims use: the invariant of the machine, and the shapes of what an instruction changes and
leaves unchanged. `s` is the state before, `t` the state after. -/

namespace Sys2Proof.Machine

/-- The invariant every step keeps: parameters that 00_scope.md R6 allows; `DMEM` and `IMEM` in canonical form and
inside their bounds (20_memory.md R28, R29); no `IMEM` unless `HARVARD` (10_state.md R27). -/
structure State.Inv (s : State) : Prop where
  config : s.config.wf = true
  dmemCanonical : s.dmem.wf = true
  dmemInRange : ∀ cell ∈ s.dmem, cell.1 < s.config.memSize
  imemCanonical : sparseWf s.imem = true
  imemInRange : ∀ cell ∈ s.imem, cell.1 < s.config.imemWords
  imemAbsent : s.config.harvard = false → s.imem = []

/-! ## How a step ends -/

/-- A completed step, apart from registers, `DMEM` and `OUT`: the flags are `f`, the run state `r`, the step is counted,
and the parameters, `FAULT` and `IMEM` are as before (10_state.md R22, R23; 20_memory.md R29). -/
structure CompletesWith (s t : State) (f : Flags) (r : RunState) : Prop where
  config : t.config = s.config
  flags : t.flags = f
  run : t.run = r
  fault : t.fault = s.fault
  icount : t.icount = s.icount + 1
  imem : t.imem = s.imem

/-- A completed step that leaves the run state as it was. -/
def Completes (s t : State) (f : Flags) : Prop := CompletesWith s t f s.run

/-- A memory fault with failing address `f`: nothing but `FAULT`, and `RUN` when `HALT_ON_FAULT`, differs
(60_exceptions.md R118). -/
def TakesFault (s t : State) (f : Word) : Prop :=
  t = { s with fault := some f, run := if s.config.haltOnFault then .halted else s.run }

/-- The undefined stop: nothing but `RUN` differs (R121). -/
def StopsUndefined (s t : State) : Prop := t = { s with run := .undefined }

/-! ## Memory -/

/-- Every byte of `DMEM` reads as before, and nothing goes to the console. -/
def KeepsMemory (s t : State) : Prop := t.out = s.out ∧ ∀ a, t.byte a = s.byte a

/-- The `n` bytes from `a` on hold the low `n` bytes of `v`, least significant first (20_memory.md R33); every other
byte reads as before, and nothing goes to the console. -/
def Stores (s t : State) (a n : Nat) (v : Word) : Prop :=
  t.out = s.out ∧ (∀ i, i < n → t.byte (a + i) = v.extractLsb' (8 * i) 8) ∧
    ∀ b, (b < a ∨ a + n ≤ b) → t.byte b = s.byte b

/-- `v` is the little-endian value of the `n` bytes from `a` on, its upper bits all `fill` (20_memory.md R33, R35). -/
def ReadsAs (s : State) (a n : Nat) (fill : Bool) (v : Word) : Prop :=
  ∀ k, k < 32 → v.getLsbD k = if k < 8 * n then (s.byte (a + k / 8)).getLsbD (k % 8) else fill

/-- The address a push writes by `STACK_MODE` (42_load_store.md R99). -/
def pushTarget (mode : StackMode) (sp : Word) : Word :=
  match mode with
  | .fullDescending => sp - 4#32
  | .emptyDescending => sp

/-- The address a pop reads by `STACK_MODE` (R99). -/
def popTarget (mode : StackMode) (sp : Word) : Word :=
  match mode with
  | .fullDescending => sp
  | .emptyDescending => sp + 4#32

/-! ## Registers -/

/-- The PC after a non-control handler: `written` is what the handler wrote to `x[7]`, if it did (40_engine.md R74). -/
def sequentialPc (s : State) (written : Option Word) : Word :=
  match written with
  | none => s.pc + 4#32
  | some v => if s.config.r7WriteAdvance then v + 4#32 else v

/-- No general register but the PC changes, and the PC becomes `p`. -/
def WritesOnlyPc (s t : State) (p : Word) : Prop :=
  t.pc = p ∧ ∀ r, r ≠ pcReg → t.readReg r = s.readReg r

/-- `x[d] <- v` by a non-control handler, and the sequential advance. -/
def WritesOne (s t : State) (d : RegIdx) (v : Word) : Prop :=
  t.pc = sequentialPc s (if d = pcReg then some v else none) ∧
    (d ≠ pcReg → t.readReg d = v) ∧ ∀ r, r ≠ pcReg → r ≠ d → t.readReg r = s.readReg r

/-- `x[d] <- v; x[e] <- u` by a non-control handler, in that order, and the sequential advance. -/
def WritesTwo (s t : State) (d : RegIdx) (v : Word) (e : RegIdx) (u : Word) : Prop :=
  t.pc = sequentialPc s (if e = pcReg then some u else if d = pcReg then some v else none) ∧
    (e ≠ pcReg → t.readReg e = u) ∧ (d ≠ pcReg → d ≠ e → t.readReg d = v) ∧
    ∀ r, r ≠ pcReg → r ≠ d → r ≠ e → t.readReg r = s.readReg r

/-- The registers a handler writes, by the table of 10_state.md R19 (the sequential advance of the PC apart). -/
def listedWrites : Instr → List RegIdx
  | .and d _ | .or d _ | .xor d _ | .add d _ | .adc d _ | .sub d _ => [d]
  | .not d _ | .mov d _ => [d]
  | .cmp _ _ => []
  | .xchg d s | .mult d s | .div d s => [d, s]
  | .load d _ _ _ => [d]
  | .store _ _ _ _ => []
  | .push _ => [spReg]
  | .pop d => [d, spReg]
  | .moviu d _ => [d]
  | .addi d _ | .addiu d _ | .shift d _ _ => [d]
  | .cmpiu _ _ => []
  | .jne _ | .jl _ | .jmp _ => [pcReg]
  | .jsr d _ => [d, pcReg]
  | .jr _ _ => [pcReg]
  | .sys _ => [spReg, pcReg]
  | .swapcc d => [d]
  | .halt => []

/-- The word of an opcode and the bits below it (30_encoding.md R47). -/
def opcodeWord (op : BitVec 5) (rest : Word) : Word := (op.setWidth 32 <<< 27) ||| rest

/-- A field in its place in a word (R47, R54). -/
def fieldAt {n : Nat} (v : BitVec n) (offset : Nat) : Word := v.setWidth 32 <<< offset

/-- Under parameters R6 allows, the word of mnemonic `m` with `rest` below its opcode decodes to `i`. -/
def WordDecodes (c : Config) (m : Mnemonic) (rest : Word) (i : Instr) : Prop :=
  c.wf = true → decodeWord c (opcodeWord (c.opcodeMap.code m) rest) = .ok i

/-! ## Fetch -/

/-- The next fetch lies where 20_memory.md R38 lets it. -/
def Fetchable (s : State) : Prop :=
  if s.config.harvard then s.pc.toNat % 4 = 0 ∧ s.pc.toNat / 4 < s.config.imemWords
  else s.pc.toNat + 4 ≤ s.config.memSize

/-- `w` is the word the next fetch reads (R38): of `IMEM` when `HARVARD` is true, of four bytes of `DMEM` else. -/
def FetchReads (s : State) (w : Word) : Prop :=
  if s.config.harvard then w = sparseRead s.imem (s.pc.toNat / 4) else ReadsAs s s.pc.toNat 4 false w

end Sys2Proof.Machine
end

