-- ==== Sys2Proof/Certificates/Slice0/Obligations.lean ====
section
/-! DEFINITION. The statements for the provers. Each docstring names the rule or the section of spec/ it formalises; where
the spec marks a clause as its own decision D<n>, the docstring says so. -/

open Sys2Proof Sys2Proof.Machine

/-! ## The codec -/

/-- Words written out in 30_encoding.md and 95_test_vectors.md section 2.1 (U1 to U7) decode to what they stand for under
the reference parameters. The opcode numbers are the reference `OPCODE_MAP`, the spec's decision D1. -/
def Obligations.SpecWordsDecode : Prop :=
  decodeWord referenceConfig 0x61500008#32 = .ok (.load 1 2 4 8) ∧
  decodeWord referenceConfig 0xBFFFFFE0#32 = .ok (.jsr 7 0x7FFFFE0) ∧
  decodeWord referenceConfig 0x81FFFFFF#32 = .ok (.moviu 1 0xFFFF) ∧
  decodeWord referenceConfig 0xA1600004#32 = .ok (.shift 1 3 4) ∧
  decodeWord referenceConfig 0x07FFFFFF#32 = .ok (.and 7 7) ∧
  decodeWord referenceConfig 0xC8E00001#32 = .ok (.jr 0 0xE00001) ∧
  decodeWord referenceConfig 0xD9000000#32 = .ok (.swapcc 1) ∧
  decodeWord referenceConfig 0xFFFFFFFF#32 = .error (.unassignedOpcode 31)

/-- Decode and encode agree: every well-formed instruction is read back from its word and from its bytes
(30_encoding.md R55; the instruction's operands are the fields its layout defines, C2). -/
def Obligations.DecodeOfEncodeIsTheInstruction : Prop :=
  ∀ (c : Config) (i : Instr) (rest : List Byte), c.wf = true → i.wf c = true →
    decodeWord c (encodeWord c i) = .ok i ∧ decode c (encode c i ++ rest) = .ok (i, rest)

/-- The other direction: encoding what a word decodes to gives the word with its unused bits zero, and those bits change
nothing (R51, the spec's decision D35; R55's converse). -/
def Obligations.EncodeOfDecodeClearsUnusedBits : Prop :=
  ∀ (c : Config) (w : Word) (i : Instr), decodeWord c w = .ok i →
    i.wf c = true ∧ encodeWord c i = w &&& usedBits i.mnemonic ∧
      decodeWord c (w &&& usedBits i.mnemonic) = .ok i

/-- A word decodes to nothing exactly when no mnemonic has its opcode; under the reference map, when the opcode is 29, 30
or 31 (R53, R63; the spec's decisions D1, D2). -/
def Obligations.UnassignedOpcodesDecodeToNothing : Prop :=
  (∀ (c : Config) (w : Word),
    decodeWord c w = .error (.unassignedOpcode (opField w)) ↔ ∀ m, c.opcodeMap.code m ≠ opField w) ∧
  ∀ w : Word, decodeWord referenceConfig w = .error (.unassignedOpcode (opField w)) ↔ 29 ≤ (opField w).toNat

/-- Unpack of Pack: the opcode, the immediate cut to its width, each field the layout defines cut to 3 bits, and the bits
of the immediate for each field it does not define (R55, C2). -/
def Obligations.UnpackOfPack : Prop :=
  ∀ (c : Config) (m : Mnemonic) (fa fb fc imm : Word), c.wf = true →
    (unpack c (pack c m fa fb fc imm)).op = c.opcodeMap.code m ∧
    (unpack c (pack c m fa fb fc imm)).mnemonic = some m ∧
    (unpack c (pack c m fa fb fc imm)).layout = some (layoutOf c m) ∧
    (unpack c (pack c m fa fb fc imm)).imm = imm &&& mask (layoutOf c m).width ∧
    (unpack c (pack c m fa fb fc imm)).fa =
      (if (layoutOf c m).hasFieldA then fa.setWidth 3 else (imm &&& mask (layoutOf c m).width).extractLsb' 24 3) ∧
    (unpack c (pack c m fa fb fc imm)).fb =
      (if (layoutOf c m).hasFieldB then fb.setWidth 3 else (imm &&& mask (layoutOf c m).width).extractLsb' 21 3) ∧
    (unpack c (pack c m fa fb fc imm)).fc =
      (if (layoutOf c m).hasFieldC then fc.setWidth 3 else (imm &&& mask (layoutOf c m).width).extractLsb' 18 3)

/-- Extension: `zext_N` is the unsigned value of the low N bits, `sext_N` their two's-complement value (00_scope.md R9). -/
def Obligations.ExtensionReadsTheLowBits : Prop :=
  ∀ (n : Nat) (v : Word), 1 ≤ n → n ≤ 31 →
    (zext n v = v &&& mask n ∧ (zext n v).toNat = v.toNat % 2 ^ n) ∧
    (sext n v = (if v.getLsbD (n - 1) then (v &&& mask n) ||| ~~~(mask n) else v &&& mask n) ∧
      (sext n v).toInt = (v.setWidth n).toInt)

/-- ImmEncode gives a value of the field's width, and re-encoding it with shift 0 gives it back with no warning (R60; the
bound is R57's). -/
def Obligations.ImmEncodeIsIdempotent : Prop :=
  ∀ (v : Word) (size : Nat) (signed : Bool) (shift : Nat) (relative : Bool) (address address' : Word),
    1 ≤ size → size ≤ 31 →
      (immEncode v size signed shift relative address).value.toNat < 2 ^ size ∧
      immEncode (immEncode v size signed shift relative address).value size signed 0 false address' =
        ⟨(immEncode v size signed shift relative address).value, false, false⟩

/-- The range warning tests only the bits above the mask: a signed operand warns outside -2^size .. 2^size - 1, an
unsigned one outside 0 .. 2^size - 1 (R59, which the spec derives from R57). -/
def Obligations.RangeWarningTestsBitsAboveTheMask : Prop :=
  ∀ (v : Word) (size : Nat) (address : Word), 1 ≤ size → size ≤ 31 →
    ((immEncode v size true 0 false address).warnRange = false ↔ -(2 ^ size) ≤ v.toInt ∧ v.toInt < 2 ^ size) ∧
    ((immEncode v size false 0 false address).warnRange = false ↔ v.toNat < 2 ^ size)

/-- The encoder's and the handler's arithmetic are inverse: a JNE or JL assembled for a target a multiple of 4 away and
within reach branches to that target (R61's last paragraph, which the spec derives from R56, R57 and R109). -/
def Obligations.AssembledBranchReachesItsTarget : Prop :=
  ∀ (c : Config) (address : Word) (o : AsmOperands), c.wf = true →
    (o.operand - address) &&& 3#32 = 0#32 → -(2 ^ 28) ≤ (o.operand - address).toInt →
    (o.operand - address).toInt < 2 ^ 28 →
      ∃ imm : BitVec 27,
        decodeWord c (assemble c address .jne o) = .ok (.jne imm) ∧
        decodeWord c (assemble c address .jl o) = .ok (.jl imm) ∧
        address + displacement27 imm = o.operand

/-! ## The step -/

/-- A step runs the decoded instruction: when the machine is running, the fetch is in range and the word it reads decodes to
`i`, the step is `exec` of `i` (40_engine.md R71, R72). `exec` holds the commit, the PC's advance and the count. -/
def Obligations.StepRunsTheDecodedInstruction : Prop :=
  ∀ (s : State) (w : Word) (i : Instr), s.run = .running → Fetchable s → FetchReads s w →
    decodeWord s.config w = .ok i → step s = exec i s

/-- A fetch out of range takes the memory fault at the PC, and nothing else changes (20_memory.md R38, 60_exceptions.md
R118; the Harvard checks are the spec's decision D31). -/
def Obligations.FetchOutOfRangeTakesTheFault : Prop :=
  ∀ s : State, s.run = .running → ¬Fetchable s → ∃ t, step s = .next t ∧ TakesFault s t s.pc

/-- A fetched word of an unassigned opcode stops the machine undefined, and nothing else changes (60_exceptions.md R121, the
spec's decisions D2, D34). That this is a next state is the model's choice, log 4. -/
def Obligations.UnassignedOpcodeStopsUndefined : Prop :=
  ∀ (s : State) (w : Word), s.run = .running → Fetchable s → FetchReads s w →
    (∀ m, s.config.opcodeMap.code m ≠ opField w) → ∃ t, step s = .next t ∧ StopsUndefined s t

/-- No step happens unless the machine is running (40_engine.md R70; `undefined` is the spec's decision D34). That the
model's step answers a named fault there is the model's choice, log 3. -/
def Obligations.NoStepUnlessRunning : Prop :=
  ∀ s : State, (s.run = .halted → step s = .fault .noStepWhenHalted) ∧
    (s.run = .undefined → step s = .fault .noStepWhenUndefined) ∧
    (s.run = .running → ∃ t, step s = .next t)

/-- The refetch loop: with `HALT_ON_FAULT` false, a running machine whose step did not complete differs only in `FAULT`, and
every later step gives that same state again (60_exceptions.md R119, which the spec derives from R118 and R71). -/
def Obligations.FaultRepeatsForever : Prop :=
  ∀ s t : State, s.config.haltOnFault = false → step s = .next t → t.icount = s.icount → t.run = .running →
    (∃ f, TakesFault s t f) ∧ step t = .next t

/-- Every instruction answers a next state, and every step completes whole, or takes a memory fault, or stops undefined:
in the last two nothing of the instruction's own effect happens (40_engine.md R73, 60_exceptions.md R118, R120, R121). -/
def Obligations.StepIsAllOrNothing : Prop :=
  (∀ (i : Instr) (s : State), ∃ t, exec i s = .next t) ∧
  ∀ s t : State, step s = .next t →
    (t.icount = s.icount + 1 ∧ t.fault = s.fault ∧ (t.run = .running ∨ t.run = .halted)) ∨
    (∃ f, TakesFault s t f) ∨ StopsUndefined s t

/-! ## Invariants and whole-machine rules -/

/-- Every step keeps the invariant: allowed parameters, both memories in canonical form and inside their bounds, and no
`IMEM` unless `HARVARD` (20_memory.md R28, R29; 10_state.md R27). -/
def Obligations.EveryStepKeepsTheInvariant : Prop :=
  ∀ s t : State, s.Inv → step s = .next t → t.Inv

/-- The invariant holds at reset, and after every image load under allowed parameters. -/
def Obligations.ResetAndLoadMeetTheInvariant : Prop :=
  State.reset.Inv ∧ ∀ (c : Config) (image : List Byte) (s : State), c.wf = true → loadImage c image = .ok s → s.Inv

/-- What reset leaves (70_reset_and_hazards.md R132, R133; the register, flag and record values are the spec's decision
D30, and that reset takes the reference parameters is the model's choice, log 2). -/
def Obligations.ResetValues : Prop :=
  (∀ r, State.reset.readReg r = 0#32) ∧ State.reset.flags = ⟨false, false, false, false⟩ ∧
    State.reset.run = .running ∧ State.reset.fault = none ∧ State.reset.icount = 0#64 ∧ State.reset.out = [] ∧
    (∀ a, State.reset.byte a = 0#8) ∧ State.reset.config = referenceConfig

/-- Image load: an image is accepted exactly when its length is a multiple of 4 and fits; then a fetch at 4k reads its word k
and every other byte of `DMEM` is 0 (70_reset_and_hazards.md R134; the refusals are the spec's decision D45, the Harvard
copy D31). -/
def Obligations.LoadedImageIsFetched : Prop :=
  ∀ (c : Config) (image : List Byte), c.wf = true →
    ((∃ s, loadImage c image = .ok s) ↔ image.length % 4 = 0 ∧ image.length ≤ c.memSize ∧
      (c.harvard = true → image.length ≤ 4 * c.imemWords)) ∧
    ∀ s, loadImage c image = .ok s →
      (∀ a, s.byte a = image.getD a 0#8) ∧
      ∀ k, 4 * k + 4 ≤ image.length →
        s.fetch (BitVec.ofNat 32 (4 * k)) =
          .ok (image.getD (4 * k + 3) 0#8 ++ image.getD (4 * k + 2) 0#8 ++ image.getD (4 * k + 1) 0#8 ++
            image.getD (4 * k) 0#8)

/-- No step changes a parameter or a word of the program array (40_engine.md R77 "parameters are fixed for the run";
20_memory.md R29 "No instruction writes `IMEM`"). That the parameters stand in State is the model's choice, log 1. -/
def Obligations.ParametersAndProgramArrayNeverChange : Prop :=
  ∀ s t : State, step s = .next t → t.config = s.config ∧ t.imem = s.imem

/-- Only a byte-sized STORE whose address equals `CONSOLE_ADDR` appends to the stream: one byte, the low byte of the data
register, and no byte of `DMEM` changes (10_state.md R24, 20_memory.md R37). -/
def Obligations.OnlyConsoleStoresReachTheStream : Prop :=
  ∀ (i : Instr) (s t : State), exec i s = .next t → t.out ≠ s.out →
    ∃ d b imm, i = .store d b 1#3 imm ∧ s.readReg b + imm.signExtend 32 = s.config.consoleAddr ∧
      t.out = s.out ++ [(s.readReg d).setWidth 8] ∧ ∀ a, t.byte a = s.byte a

/-- Only ADD, ADC and SWAPCC change `C`; only CMP, CMPIU and SWAPCC change `LT`, `EQ` or `GT` (10_state.md R20; that no other
instruction writes `C` is the spec's decision D20). -/
def Obligations.FlagsChangeOnlyByTheirWriters : Prop :=
  ∀ (i : Instr) (s t : State), exec i s = .next t →
    (t.flags.c ≠ s.flags.c → i.mnemonic = .add ∨ i.mnemonic = .adc ∨ i.mnemonic = .swapcc) ∧
    (t.flags.lt ≠ s.flags.lt ∨ t.flags.eq ≠ s.flags.eq ∨ t.flags.gt ≠ s.flags.gt →
      i.mnemonic = .cmp ∨ i.mnemonic = .cmpiu ∨ i.mnemonic = .swapcc)

/-- Only STORE, PUSH and SYS change a byte of `DMEM` (20_memory.md R31). -/
def Obligations.MemoryChangesOnlyByStores : Prop :=
  ∀ (i : Instr) (s t : State) (a : Nat), exec i s = .next t → t.byte a ≠ s.byte a →
    i.mnemonic = .store ∨ i.mnemonic = .push ∨ i.mnemonic = .sys

/-- An instruction changes no general register but the PC and those the table of 10_state.md R19 lists for it. -/
def Obligations.OnlyListedRegistersChange : Prop :=
  ∀ (i : Instr) (s t : State) (r : RegIdx), exec i s = .next t → r ≠ pcReg → r ∉ listedWrites i →
    t.readReg r = s.readReg r

/-- A word-aligned PC stays word-aligned, except through JR with an unaligned register and non-control instructions that
write `x[7]` (40_engine.md R76, which the spec derives from R74 and 30_encoding.md R56). -/
def Obligations.PcStaysWordAligned : Prop :=
  ∀ (i : Instr) (s t : State), exec i s = .next t → s.pc.toNat % 4 = 0 →
    (∀ d imm, i = .jr d imm → (s.readReg d).toNat % 4 = 0) →
    (isControl i.mnemonic = false → pcReg ∉ listedWrites i) → t.pc.toNat % 4 = 0

/-- In unified mode a stored word is what the next fetch at its address reads; in Harvard mode no instruction changes what
any fetch reads (20_memory.md R45, the spec's decision D38, and R29). -/
def Obligations.StoresReachFetchOnlyInUnifiedMode : Prop :=
  (∀ (d b : RegIdx) (imm : BitVec 18) (st : State), st.config.harvard = false →
    (st.readReg b + imm.signExtend 32).toNat + 4 ≤ st.config.memSize →
      ∃ t, exec (.store d b 4#3 imm) st = .next t ∧ t.fetch (st.readReg b + imm.signExtend 32) = .ok (st.readReg d)) ∧
  ∀ (i : Instr) (s t : State) (a : Word), s.config.harvard = true → exec i s = .next t → t.fetch a = s.fetch a

/-- `FAULT`, `ICOUNT` and `OUT` are for the host only: two machines that differ only in them make the same step in
everything else (40_engine.md R80, 10_state.md R25). -/
def Obligations.HostOnlyStateIsNotRead : Prop :=
  ∀ (s t : State) (f : Option Word) (n : BitVec 64) (o : List Byte), step s = .next t →
    ∃ t', step { s with fault := f, icount := n, out := o } = .next t' ∧ t'.config = t.config ∧ t'.regs = t.regs ∧
      t'.flags = t.flags ∧ t'.run = t.run ∧ t'.dmem = t.dmem ∧ t'.imem = t.imem

/-! ## Register ALU -/

/-- AND (41_register_alu.md R83): its word, its result, flags and frame, for every d and s, the PC among them. What the PC
becomes when d = 7 is 40_engine.md R74's parameter (the spec's decision D17), read as log 9 says. -/
def Obligations.AndWritesTheConjunction : Prop :=
  ∀ (d s : RegIdx) (x : BitVec 21) (st : State),
    WordDecodes st.config .and (fieldAt d 24 ||| fieldAt s 21 ||| fieldAt x 0) (.and d s) ∧
    ∃ t, exec (.and d s) st = .next t ∧ Completes st t st.flags ∧ KeepsMemory st t ∧
      WritesOne st t d (st.readReg d &&& st.readReg s)

/-- OR, XOR and SUB (41_register_alu.md section 2; the operand order is the spec's decision D41, that SUB keeps `C` D20; the
PC when d = 7 D17, log 9). -/
def Obligations.OrXorSubWriteTheirResults : Prop :=
  ∀ (d s : RegIdx) (x : BitVec 21) (st : State),
    (WordDecodes st.config .or (fieldAt d 24 ||| fieldAt s 21 ||| fieldAt x 0) (.or d s) ∧
      ∃ t, exec (.or d s) st = .next t ∧ Completes st t st.flags ∧ KeepsMemory st t ∧
        WritesOne st t d (st.readReg d ||| st.readReg s)) ∧
    (WordDecodes st.config .xor (fieldAt d 24 ||| fieldAt s 21 ||| fieldAt x 0) (.xor d s) ∧
      ∃ t, exec (.xor d s) st = .next t ∧ Completes st t st.flags ∧ KeepsMemory st t ∧
        WritesOne st t d (st.readReg d ^^^ st.readReg s)) ∧
    (WordDecodes st.config .sub (fieldAt d 24 ||| fieldAt s 21 ||| fieldAt x 0) (.sub d s) ∧
      ∃ t, exec (.sub d s) st = .next t ∧ Completes st t st.flags ∧ KeepsMemory st t ∧
        WritesOne st t d (st.readReg d - st.readReg s))

/-- NOT (R86): the complement of the source; the PC when d = 7 is the spec's decision D17, log 9. -/
def Obligations.NotWritesTheComplement : Prop :=
  ∀ (d s : RegIdx) (x : BitVec 21) (st : State),
    WordDecodes st.config .not (fieldAt d 24 ||| fieldAt s 21 ||| fieldAt x 0) (.not d s) ∧
    ∃ t, exec (.not d s) st = .next t ∧ Completes st t st.flags ∧ KeepsMemory st t ∧
      WritesOne st t d (~~~(st.readReg s))

/-- ADD and ADC (41_register_alu.md section 2): the sum modulo 2^32, and `C` the unsigned carry out (the spec's decisions
D20, D21; the PC when d = 7 D17, log 9). -/
def Obligations.AddAndAdcSumWithCarryOut : Prop :=
  ∀ (d s : RegIdx) (x : BitVec 21) (st : State),
    (WordDecodes st.config .add (fieldAt d 24 ||| fieldAt s 21 ||| fieldAt x 0) (.add d s) ∧
      ∃ t, exec (.add d s) st = .next t ∧
        Completes st t { st.flags with c := decide (2 ^ 32 ≤ (st.readReg d).toNat + (st.readReg s).toNat) } ∧
        KeepsMemory st t ∧ WritesOne st t d (st.readReg d + st.readReg s)) ∧
    (WordDecodes st.config .adc (fieldAt d 24 ||| fieldAt s 21 ||| fieldAt x 0) (.adc d s) ∧
      ∃ t, exec (.adc d s) st = .next t ∧
        Completes st t { st.flags with
          c := decide (2 ^ 32 ≤ (st.readReg d).toNat + (st.readReg s).toNat + (if st.flags.c then 1 else 0)) } ∧
        KeepsMemory st t ∧ WritesOne st t d (st.readReg d + st.readReg s + (if st.flags.c then 1#32 else 0#32)))

/-- CMP (R90): signed less, equal, greater; `C` and every register but the PC kept. -/
def Obligations.CmpComparesSigned : Prop :=
  ∀ (d s : RegIdx) (x : BitVec 21) (st : State),
    WordDecodes st.config .cmp (fieldAt d 24 ||| fieldAt s 21 ||| fieldAt x 0) (.cmp d s) ∧
    ∃ t, exec (.cmp d s) st = .next t ∧
      Completes st t ⟨(st.readReg d).slt (st.readReg s), st.readReg d == st.readReg s,
        (st.readReg s).slt (st.readReg d), st.flags.c⟩ ∧
      KeepsMemory st t ∧ WritesOnlyPc st t (st.pc + 4#32)

/-- XCHG (41_register_alu.md section 2, the spec's decision D41; the PC when d or s is 7 D17, log 9). -/
def Obligations.XchgExchanges : Prop :=
  ∀ (d s : RegIdx) (x : BitVec 21) (st : State),
    WordDecodes st.config .xchg (fieldAt d 24 ||| fieldAt s 21 ||| fieldAt x 0) (.xchg d s) ∧
    ∃ t, exec (.xchg d s) st = .next t ∧ Completes st t st.flags ∧ KeepsMemory st t ∧
      WritesTwo st t d (st.readReg s) s (st.readReg d)

/-- MULT (41_register_alu.md section 2): high : low is the exact signed product, high to d, low to s, the low half second
(the spec's decision D22; the PC when d or s is 7 D17, log 9). -/
def Obligations.MultWritesTheSignedProduct : Prop :=
  ∀ (d s : RegIdx) (x : BitVec 21) (st : State),
    WordDecodes st.config .mult (fieldAt d 24 ||| fieldAt s 21 ||| fieldAt x 0) (.mult d s) ∧
    ∃ (t : State) (high low : Word), exec (.mult d s) st = .next t ∧
      (high ++ low : BitVec 64).toInt = (st.readReg d).toInt * (st.readReg s).toInt ∧
      Completes st t st.flags ∧ KeepsMemory st t ∧ WritesTwo st t d high s low

/-- DIV where the result is defined (41_register_alu.md section 2): the quotient truncated toward zero to d, the remainder
with the dividend's sign to s, the remainder second (the spec's decisions D22, D23; the PC when d or s is 7 D17,
log 9). -/
def Obligations.DivWritesQuotientAndRemainder : Prop :=
  ∀ (d s : RegIdx) (x : BitVec 21) (st : State), st.readReg s ≠ 0#32 →
    ¬(st.readReg d = 0x80000000#32 ∧ st.readReg s = 0xFFFFFFFF#32) →
    WordDecodes st.config .div (fieldAt d 24 ||| fieldAt s 21 ||| fieldAt x 0) (.div d s) ∧
    ∃ (t : State) (q r : Word), exec (.div d s) st = .next t ∧
      (st.readReg d).toInt = q.toInt * (st.readReg s).toInt + r.toInt ∧
      r.toInt.natAbs < (st.readReg s).toInt.natAbs ∧
      (r.toInt ≠ 0 → (r.toInt < 0 ↔ (st.readReg d).toInt < 0)) ∧
      Completes st t st.flags ∧ KeepsMemory st t ∧ WritesTwo st t d q s r

/-- What has no defined meaning stops undefined: DIV by zero and of 0x80000000 by 0xFFFFFFFF (the spec's decision D23), LOAD
and STORE of a reserved size (D13), SHIFT of a reserved kind (D24); 60_exceptions.md section 1, 30_encoding.md section 7.
That this is a next state is the model's choice, log 4. -/
def Obligations.ReservedFormsStopUndefined : Prop :=
  (∀ (d s : RegIdx) (st : State),
    st.readReg s = 0#32 ∨ (st.readReg d = 0x80000000#32 ∧ st.readReg s = 0xFFFFFFFF#32) →
      ∃ t, exec (.div d s) st = .next t ∧ StopsUndefined st t) ∧
  (∀ (d s : RegIdx) (m : BitVec 3) (imm : BitVec 18) (st : State), m ≠ 1#3 → m ≠ 2#3 → m ≠ 4#3 →
    (∃ t, exec (.load d s m imm) st = .next t ∧ StopsUndefined st t) ∧
    ∃ t, exec (.store d s m imm) st = .next t ∧ StopsUndefined st t) ∧
  ∀ (d : RegIdx) (m : BitVec 3) (imm : BitVec 21) (st : State), 4 ≤ m.toNat →
    ∃ t, exec (.shift d m imm) st = .next t ∧ StopsUndefined st t

/-- MOV (41_register_alu.md section 2, the spec's decision D41); with d = 7 the PC rule of 40_engine.md R74 (D17, log 9). -/
def Obligations.MovCopiesTheSource : Prop :=
  ∀ (d s : RegIdx) (x : BitVec 21) (st : State),
    WordDecodes st.config .mov (fieldAt d 24 ||| fieldAt s 21 ||| fieldAt x 0) (.mov d s) ∧
    ∃ t, exec (.mov d s) st = .next t ∧ Completes st t st.flags ∧ KeepsMemory st t ∧
      WritesOne st t d (st.readReg s)

/-! ## Load, store and stack -/

/-- LOAD in range, for each size (42_load_store.md section 1): the little-endian value of the bytes at `x[s] + sext(imm)`,
its upper bits zero or the top bit by `LOAD_EXT` (the spec's decisions D9, D13, D14, D15; the PC when d = 7
D17, log 9). -/
def Obligations.LoadReadsMemory : Prop :=
  ∀ (d s : RegIdx) (n : Size) (imm : BitVec 18) (st : State),
    (st.readReg s + imm.signExtend 32).toNat + n.bytes ≤ st.config.memSize →
    WordDecodes st.config .load (fieldAt d 24 ||| fieldAt s 21 ||| fieldAt (BitVec.ofNat 3 n.bytes) 18 ||| fieldAt imm 0)
      (.load d s (BitVec.ofNat 3 n.bytes) imm) ∧
    ∃ (t : State) (v : Word), exec (.load d s (BitVec.ofNat 3 n.bytes) imm) st = .next t ∧
      ReadsAs st (st.readReg s + imm.signExtend 32).toNat n.bytes
        (decide (st.config.loadExt = .sign) &&
          (st.byte ((st.readReg s + imm.signExtend 32).toNat + (n.bytes - 1))).getLsbD 7) v ∧
      Completes st t st.flags ∧ KeepsMemory st t ∧ WritesOne st t d v

/-- STORE in range and not at the console port, for each size (42_load_store.md section 1): the low bytes of `x[d]` at
`x[s] + sext(imm)`, least significant first (the spec's decisions D9, D13, D15). -/
def Obligations.StoreWritesMemory : Prop :=
  ∀ (d s : RegIdx) (n : Size) (imm : BitVec 18) (st : State),
    (st.readReg s + imm.signExtend 32).toNat + n.bytes ≤ st.config.memSize →
    ¬(n = .byte ∧ st.readReg s + imm.signExtend 32 = st.config.consoleAddr) →
    WordDecodes st.config .store (fieldAt d 24 ||| fieldAt s 21 ||| fieldAt (BitVec.ofNat 3 n.bytes) 18 ||| fieldAt imm 0)
      (.store d s (BitVec.ofNat 3 n.bytes) imm) ∧
    ∃ t, exec (.store d s (BitVec.ofNat 3 n.bytes) imm) st = .next t ∧ Completes st t st.flags ∧
      Stores st t (st.readReg s + imm.signExtend 32).toNat n.bytes (st.readReg d) ∧
      WritesOnlyPc st t (st.pc + 4#32)

/-- A byte STORE at `CONSOLE_ADDR`, whether or not the address lies in `DMEM`: the low byte goes to the stream and no byte
of memory changes (20_memory.md R37; the address is the parameter of D8). -/
def Obligations.ConsoleStoreAppendsOneByte : Prop :=
  ∀ (d s : RegIdx) (imm : BitVec 18) (st : State), st.readReg s + imm.signExtend 32 = st.config.consoleAddr →
    ∃ t, exec (.store d s 1#3 imm) st = .next t ∧ Completes st t st.flags ∧
      t.out = st.out ++ [(st.readReg d).setWidth 8] ∧ (∀ a, t.byte a = st.byte a) ∧
      WritesOnlyPc st t (st.pc + 4#32)

/-- LOAD and STORE out of range take the memory fault at the effective address; the console store never faults
(42_load_store.md section 1, 60_exceptions.md R118; the recorded address is the spec's decision D12). -/
def Obligations.LoadAndStoreOutOfRangeFault : Prop :=
  ∀ (d s : RegIdx) (n : Size) (imm : BitVec 18) (st : State),
    st.config.memSize < (st.readReg s + imm.signExtend 32).toNat + n.bytes →
    (∃ t, exec (.load d s (BitVec.ofNat 3 n.bytes) imm) st = .next t ∧
      TakesFault st t (st.readReg s + imm.signExtend 32)) ∧
    (¬(n = .byte ∧ st.readReg s + imm.signExtend 32 = st.config.consoleAddr) →
      ∃ t, exec (.store d s (BitVec.ofNat 3 n.bytes) imm) st = .next t ∧
        TakesFault st t (st.readReg s + imm.signExtend 32))

/-- PUSH (42_load_store.md R100): `x[d]` as read before SP changes is stored at the push address of `STACK_MODE`, then SP is
lowered by 4; out of range it takes the fault at that address and SP is unchanged (the spec's decisions D9, D12, D16). -/
def Obligations.PushStoresThenLowersSp : Prop :=
  ∀ (d : RegIdx) (x : BitVec 24) (st : State),
    WordDecodes st.config .push (fieldAt d 24 ||| fieldAt x 0) (.push d) ∧
    ∃ t, exec (.push d) st = .next t ∧
      if (pushTarget st.config.stackMode st.sp).toNat + 4 ≤ st.config.memSize then
        Completes st t st.flags ∧
        Stores st t (pushTarget st.config.stackMode st.sp).toNat 4 (st.readReg d) ∧
        WritesOne st t spReg (st.sp - 4#32)
      else TakesFault st t (pushTarget st.config.stackMode st.sp)

/-- POP (42_load_store.md section 2): the word at the pop address goes to `x[d]`, then 4 is added to SP as it stands then, so
`POP R6` ends with the loaded value plus 4 (the spec's decision D42), and a byte order of D9, addresses
of D16, the PC when d = 7 of D17 (log 9); out of range it takes the fault. -/
def Obligations.PopLoadsThenRaisesSp : Prop :=
  ∀ (d : RegIdx) (x : BitVec 24) (st : State),
    WordDecodes st.config .pop (fieldAt d 24 ||| fieldAt x 0) (.pop d) ∧
    ∃ t, exec (.pop d) st = .next t ∧
      if (popTarget st.config.stackMode st.sp).toNat + 4 ≤ st.config.memSize then
        ∃ v, ReadsAs st (popTarget st.config.stackMode st.sp).toNat 4 false v ∧ Completes st t st.flags ∧
          KeepsMemory st t ∧ WritesTwo st t d v spReg ((if d = spReg then v else st.sp) + 4#32)
      else TakesFault st t (popTarget st.config.stackMode st.sp)

/-! ## Immediate -/

/-- MOVIU (43_immediate.md R102): the immediate in the upper half, the lower half zero; the PC when d = 7 is the spec's
decision D17, log 9. -/
def Obligations.MoviuLoadsTheUpperHalf : Prop :=
  ∀ (d : RegIdx) (imm : BitVec 16) (x : BitVec 8) (st : State),
    WordDecodes st.config .moviu (fieldAt d 24 ||| fieldAt x 16 ||| fieldAt imm 0) (.moviu d imm) ∧
    ∃ t, exec (.moviu d imm) st = .next t ∧ Completes st t st.flags ∧ KeepsMemory st t ∧
      WritesOne st t d (imm ++ 0#16)

/-- ADDI and ADDIU (43_immediate.md R103, R104): the sign-extended and the zero-extended immediate; no flag, which for `C` is
the spec's decision D20; the PC when d = 7 is D17, log 9. -/
def Obligations.AddiAndAddiuAddTheImmediate : Prop :=
  ∀ (d : RegIdx) (imm : BitVec 24) (st : State),
    (WordDecodes st.config .addi (fieldAt d 24 ||| fieldAt imm 0) (.addi d imm) ∧
      ∃ t, exec (.addi d imm) st = .next t ∧ Completes st t st.flags ∧ KeepsMemory st t ∧
        WritesOne st t d (st.readReg d + imm.signExtend 32)) ∧
    (WordDecodes st.config .addiu (fieldAt d 24 ||| fieldAt imm 0) (.addiu d imm) ∧
      ∃ t, exec (.addiu d imm) st = .next t ∧ Completes st t st.flags ∧ KeepsMemory st t ∧
        WritesOne st t d (st.readReg d + imm.setWidth 32))

/-- CMPIU (R105): the low 24 bits, unsigned, against the immediate; bits 31:24 ignored; `C` kept. -/
def Obligations.CmpiuComparesTheLowBits : Prop :=
  ∀ (d : RegIdx) (imm : BitVec 24) (st : State),
    WordDecodes st.config .cmpiu (fieldAt d 24 ||| fieldAt imm 0) (.cmpiu d imm) ∧
    ∃ t, exec (.cmpiu d imm) st = .next t ∧
      Completes st t ⟨((st.readReg d).setWidth 24).ult imm, (st.readReg d).setWidth 24 == imm,
        imm.ult ((st.readReg d).setWidth 24), st.flags.c⟩ ∧
      KeepsMemory st t ∧ WritesOnlyPc st t (st.pc + 4#32)

/-- SHIFT of kinds 0 to 3 by the low five bits of the immediate (43_immediate.md, SHIFT; the kinds' codes, and that
arithmetic-left is logical-left, are the spec's decision D24, marked there from general knowledge, log 18; the PC when
d = 7 is D17, log 9). -/
def Obligations.ShiftShiftsByTheLowFiveBits : Prop :=
  ∀ (d m : RegIdx) (imm : BitVec 21) (st : State), m.toNat < 4 →
    WordDecodes st.config .shift (fieldAt d 24 ||| fieldAt m 21 ||| fieldAt imm 0) (.shift d m imm) ∧
    ∃ t, exec (.shift d m imm) st = .next t ∧ Completes st t st.flags ∧ KeepsMemory st t ∧
      WritesOne st t d
        (if m = 1#3 then st.readReg d >>> (imm.toNat % 32)
         else if m = 3#3 then (st.readReg d).sshiftRight (imm.toNat % 32)
         else st.readReg d <<< (imm.toNat % 32))

/-! ## Control transfer -/

/-- JNE (44_control.md R109): taken exactly when `EQ` is 0, else the PC advances by 4; assembled through ImmEncode with size
27, signed, shift 2, relative. -/
def Obligations.JneBranchesWhenNotEqual : Prop :=
  ∀ (imm : BitVec 27) (o : AsmOperands) (st : State),
    WordDecodes st.config .jne (fieldAt imm 0) (.jne imm) ∧
    assemble st.config st.pc .jne o =
      opcodeWord (st.config.opcodeMap.code .jne) (immEncode o.operand 27 true 2 true st.pc).value ∧
    ∃ t, exec (.jne imm) st = .next t ∧ t.flags = st.flags ∧ t.run = st.run ∧ KeepsMemory st t ∧
      WritesOnlyPc st t (if st.flags.eq = false then st.pc + (imm.signExtend 32 <<< 2) else st.pc + 4#32)

/-- JL (R110): taken exactly when `LT` is 1, else the PC advances by exactly 4; assembled as JNE. -/
def Obligations.JlBranchesWhenLess : Prop :=
  ∀ (imm : BitVec 27) (o : AsmOperands) (st : State),
    WordDecodes st.config .jl (fieldAt imm 0) (.jl imm) ∧
    assemble st.config st.pc .jl o =
      opcodeWord (st.config.opcodeMap.code .jl) (immEncode o.operand 27 true 2 true st.pc).value ∧
    ∃ t, exec (.jl imm) st = .next t ∧ t.flags = st.flags ∧ t.run = st.run ∧ KeepsMemory st t ∧
      WritesOnlyPc st t (if st.flags.lt = true then st.pc + (imm.signExtend 32 <<< 2) else st.pc + 4#32)

/-- JSR (44_control.md, JSR): the link `a + 4` first, then the displacement added to the PC as it stands then, so a link
register of 7 gives `a + 4 + disp` (the spec's decisions D5, D6; C1). The displacement is of 27 or 24 bits by `JSR_LAYOUT`,
and the link register is bits 26:24 of the word in both. -/
def Obligations.JsrLinksThenBranches : Prop :=
  ∀ (d : RegIdx) (imm : BitVec 27) (st : State),
    WordDecodes st.config .jsr (fieldAt imm 0) (.jsr (imm.extractLsb' 24 3)
      (match st.config.jsrLayout with
       | .l27 => imm
       | .l24 => (imm.setWidth 24).setWidth 27)) ∧
    ∃ t, exec (.jsr d imm) st = .next t ∧ Completes st t st.flags ∧ KeepsMemory st t ∧
      t.pc = (if d = pcReg then st.pc + 4#32 else st.pc) +
        (match st.config.jsrLayout with
         | .l27 => imm.signExtend 32 <<< 2
         | .l24 => (imm.setWidth 24).signExtend 32 <<< 2) ∧
      (d ≠ pcReg → t.readReg d = st.pc + 4#32) ∧
      ∀ r, r ≠ pcReg → r ≠ d → t.readReg r = st.readReg r

/-- JMP (R112): absolute, whatever the PC was; assembled through ImmEncode with size 27, signed, shift 2, not relative. -/
def Obligations.JmpIsAbsolute : Prop :=
  ∀ (imm : BitVec 27) (o : AsmOperands) (st : State),
    WordDecodes st.config .jmp (fieldAt imm 0) (.jmp imm) ∧
    assemble st.config st.pc .jmp o =
      opcodeWord (st.config.opcodeMap.code .jmp) (immEncode o.operand 27 true 2 false st.pc).value ∧
    ∃ t, exec (.jmp imm) st = .next t ∧ t.flags = st.flags ∧ t.run = st.run ∧ KeepsMemory st t ∧
      WritesOnlyPc st t (imm.signExtend 32 <<< 2)

/-- JR (R113): the register, the PC among them, plus the displacement; assembled through ImmEncode with size 24, signed,
shift 2, not relative. -/
def Obligations.JrJumpsThroughARegister : Prop :=
  ∀ (d : RegIdx) (imm : BitVec 24) (o : AsmOperands) (st : State),
    WordDecodes st.config .jr (fieldAt d 24 ||| fieldAt imm 0) (.jr d imm) ∧
    assemble st.config st.pc .jr o =
      opcodeWord (st.config.opcodeMap.code .jr)
        (fieldAt o.rd 24 ||| (immEncode o.operand 24 true 2 false st.pc).value) ∧
    ∃ t, exec (.jr d imm) st = .next t ∧ t.flags = st.flags ∧ t.run = st.run ∧ KeepsMemory st t ∧
      WritesOnlyPc st t (st.readReg d + (imm.signExtend 32 <<< 2))

/-- JNE, JL, JMP and JR complete, and leave the parameters, the flags, `RUN`, `FAULT` and `IMEM` as they were and count one step
(40_engine.md R71; what the count counts is the spec's decision D29, that `FAULT` stays D12). -/
def Obligations.BranchesAndJumpsLeaveTheRest : Prop :=
  ∀ (i : Instr) (s t : State), i.mnemonic = .jne ∨ i.mnemonic = .jl ∨ i.mnemonic = .jmp ∨ i.mnemonic = .jr →
    exec i s = .next t → Completes s t s.flags

/-- SYS (44_control.md, SYS): the address of the SYS is pushed as PUSH would, and the PC becomes the zero-extended immediate
times 4 (the spec's decisions D16, D26); when the push is out of range it takes the fault and SP and PC are unchanged. -/
def Obligations.SysPushesThePcAndVectors : Prop :=
  ∀ (imm : BitVec 27) (st : State),
    WordDecodes st.config .sys (fieldAt imm 0) (.sys imm) ∧
    ∃ t, exec (.sys imm) st = .next t ∧
      if (pushTarget st.config.stackMode st.sp).toNat + 4 ≤ st.config.memSize then
        Completes st t st.flags ∧
        Stores st t (pushTarget st.config.stackMode st.sp).toNat 4 st.pc ∧
        t.pc = imm.setWidth 32 <<< 2 ∧ t.sp = st.sp - 4#32 ∧
        ∀ r, r ≠ pcReg → r ≠ spReg → t.readReg r = st.readReg r
      else TakesFault st t (pushTarget st.config.stackMode st.sp)

/-! ## Flag exchange and halt -/

/-- SWAPCC (45_system.md, SWAPCC): bit 0 EQ, bit 1 GT, bit 2 LT, bit 3 C, exchanged with the register's low four bits; its
other bits are kept (the spec's decision D25; the PC when d = 7 is D17, log 9). -/
def Obligations.SwapccExchangesTheFlags : Prop :=
  ∀ (d : RegIdx) (x : BitVec 24) (st : State),
    WordDecodes st.config .swapcc (fieldAt d 24 ||| fieldAt x 0) (.swapcc d) ∧
    ∃ t, exec (.swapcc d) st = .next t ∧
      Completes st t ⟨(st.readReg d).getLsbD 2, (st.readReg d).getLsbD 0, (st.readReg d).getLsbD 1,
        (st.readReg d).getLsbD 3⟩ ∧
      KeepsMemory st t ∧
      WritesOne st t d ((st.readReg d).extractLsb' 4 28 ++ BitVec.ofBool st.flags.c ++ BitVec.ofBool st.flags.lt ++
        BitVec.ofBool st.flags.gt ++ BitVec.ofBool st.flags.eq)

/-- Two SWAPCC of one register, not the PC, in a row restore it and the flags (45_system.md, derived there from SWAPCC's
rule). -/
def Obligations.TwoSwapccsRestore : Prop :=
  ∀ (d : RegIdx) (st : State), d ≠ pcReg →
    ∃ t u, exec (.swapcc d) st = .next t ∧ exec (.swapcc d) t = .next u ∧ u.flags = st.flags ∧
      ∀ r, r ≠ pcReg → u.readReg r = st.readReg r

/-- HALT (45_system.md, HALT): `RUN` becomes halted, the PC still advances by 4 (the spec's decision D19) and the step is
counted; the immediate is ignored. -/
def Obligations.HaltStopsTheMachine : Prop :=
  ∀ (x : BitVec 27) (st : State),
    WordDecodes st.config .halt (fieldAt x 0) .halt ∧
    ∃ t, exec .halt st = .next t ∧ CompletesWith st t st.flags .halted ∧ KeepsMemory st t ∧
      WritesOnlyPc st t (st.pc + 4#32)
end

