-- ==== Sys2Proof/Laws/Codec.lean ====
section
/-! SUPPORT. The laws of the codec: masks and extension, the opcode map, and the fields of a packed word. -/

namespace Sys2Proof

/-! ### Masks and extension -/

theorem toNat_mask {n : Nat} (h : n ≤ 31) : (mask n).toNat = 2 ^ n - 1 := by
  have h2 : 2 ^ n < 2 ^ 32 := Nat.pow_lt_pow_right (by omega) (by omega)
  have h1 : 1 ≤ 2 ^ n := Nat.one_le_two_pow
  rw [mask, BitVec.toNat_sub, BitVec.toNat_shiftLeft]
  simp only [BitVec.toNat_ofNat, Nat.shiftLeft_eq, Nat.one_mod, one_mul]
  rw [Nat.mod_eq_of_lt h2]
  omega

/-- The bits of a mask are its low ones. -/
theorem getLsbD_mask {n : Nat} (h : n ≤ 31) (j : Nat) : (mask n).getLsbD j = decide (j < n) := by
  rw [BitVec.getLsbD, toNat_mask h, Nat.testBit_two_pow_sub_one]

/-- `zext_N` keeps the low bits and clears the rest (00_scope.md R9). -/
theorem getLsbD_zext {n : Nat} (h : n ≤ 31) (v : Word) (j : Nat) :
    (zext n v).getLsbD j = (decide (j < n) && v.getLsbD j) := by
  rw [zext, BitVec.getLsbD_and, getLsbD_mask h, Bool.and_comm]

/-- `sext_N` repeats bit N-1 above the low bits (R9). -/
theorem getLsbD_sext {n : Nat} (h : n ≤ 31) (v : Word) {j : Nat} (hj : j < 32) :
    (sext n v).getLsbD j = if j < n then v.getLsbD j else v.getLsbD (n - 1) := by
  unfold sext
  split <;> rename_i hs <;>
    simp only [BitVec.getLsbD_or, BitVec.getLsbD_and, BitVec.getLsbD_not, getLsbD_mask h, hj, hs] <;>
    by_cases hjn : j < n <;> simp [hjn]

/-- `zext_N` is the zero extension of the low N bits. -/
theorem zext_eq {n : Nat} (h : n ≤ 31) (v : Word) : zext n v = (v.setWidth n).setWidth 32 := by
  ext j hj
  rw [← BitVec.getLsbD_eq_getElem, ← BitVec.getLsbD_eq_getElem, getLsbD_zext h]
  simp only [BitVec.getLsbD_setWidth, hj, decide_true, Bool.true_and]

/-- `sext_N` is the sign extension of the low N bits. -/
theorem sext_eq {n : Nat} (h1 : 1 ≤ n) (h : n ≤ 31) (v : Word) : sext n v = (v.setWidth n).signExtend 32 := by
  ext j hj
  rw [← BitVec.getLsbD_eq_getElem, ← BitVec.getLsbD_eq_getElem, getLsbD_sext h v hj, BitVec.getLsbD_signExtend]
  have hmsb : (v.setWidth n).msb = v.getLsbD (n - 1) := by
    rw [BitVec.msb_eq_getLsbD_last, BitVec.getLsbD_setWidth]
    simp [show n - 1 < n by omega]
  simp only [hj, decide_true, Bool.true_and, BitVec.getLsbD_setWidth, hmsb]
  split <;> simp_all

/-- `sext_N` of an N-bit immediate is its sign extension. -/
theorem sext_setWidth {n : Nat} (h1 : 1 ≤ n) (h : n ≤ 31) (imm : BitVec n) :
    sext n (imm.setWidth 32) = imm.signExtend 32 := by
  rw [sext_eq h1 h, BitVec.setWidth_setWidth_of_le _ (by omega), BitVec.setWidth_eq]

/-- `zext_N` of an N-bit immediate is its zero extension. -/
theorem zext_setWidth {n : Nat} (h : n ≤ 31) (imm : BitVec n) : zext n (imm.setWidth 32) = imm.setWidth 32 := by
  rw [zext_eq h, BitVec.setWidth_setWidth_of_le imm (show n ≤ 32 by omega), BitVec.setWidth_eq]

/-! ### The opcode map -/

theorem Mnemonic.mem_all (m : Mnemonic) : m ∈ Mnemonic.all := by
  cases m <;> decide

/-- The mnemonic found for an opcode is one the map gives that opcode. -/
theorem code_of_mnemonicOf {map : OpcodeMap} {op : BitVec 5} {m : Mnemonic} (h : mnemonicOf map op = some m) :
    map.code m = op := by
  simpa using List.find?_some h

/-- No mnemonic is found exactly for the unassigned opcodes (30_encoding.md R63). -/
theorem mnemonicOf_eq_none {map : OpcodeMap} {op : BitVec 5} :
    mnemonicOf map op = none ↔ ∀ m, map.code m ≠ op := by
  simp [mnemonicOf, List.find?_eq_none, Mnemonic.mem_all]

theorem code_injective {map : OpcodeMap} (h : map.injective = true) {m m' : Mnemonic}
    (e : map.code m = map.code m') : m = m' := by
  have hn : (Mnemonic.all.map map.code).Nodup := of_decide_eq_true h
  exact List.inj_on_of_nodup_map hn m.mem_all m'.mem_all e

/-- Under an injective map the dispatcher finds each mnemonic from its own opcode (40_engine.md R72). -/
theorem mnemonicOf_code {map : OpcodeMap} (h : map.injective = true) (m : Mnemonic) :
    mnemonicOf map (map.code m) = some m := by
  cases hm : mnemonicOf map (map.code m) with
  | none => exact absurd rfl (mnemonicOf_eq_none.1 hm m)
  | some m' => rw [code_injective h (code_of_mnemonicOf hm)]

theorem Config.injective_of_wf {c : Config} (h : c.wf = true) : c.opcodeMap.injective = true := by
  simp only [Config.wf, Bool.and_eq_true] at h
  exact h.2

theorem Config.memSize_of_wf {c : Config} (h : c.wf = true) : ∃ k, 2 ≤ k ∧ k ≤ 31 ∧ c.memSize = 2 ^ k := by
  simp only [Config.wf, Config.memSizeAllowed, Bool.and_eq_true, List.any_eq_true, List.mem_range, decide_eq_true_eq,
    beq_iff_eq] at h
  obtain ⟨⟨k, hk, h2, e⟩, -⟩ := h
  exact ⟨k, h2, by omega, e⟩

/-! ### The fields of a packed word -/

theorem width_le (l : Layout) : l.width ≤ 27 := by
  cases l <;> decide

theorem getLsbD_suppliedField (present : Bool) (v : Word) (j : Nat) :
    (suppliedField present v).getLsbD j = (present && decide (j < 3) && v.getLsbD j) := by
  unfold suppliedField
  cases present <;> simp [getLsbD_mask, Bool.and_comm]

/-- Every bit of a packed word (30_encoding.md R54). -/
theorem getLsbD_pack (c : Config) (m : Mnemonic) (fa fb fc imm : Word) {j : Nat} (hj : j < 32) :
    (pack c m fa fb fc imm).getLsbD j =
      ((decide (27 ≤ j) && (c.opcodeMap.code m).getLsbD (j - 27))
        || (decide (24 ≤ j ∧ j < 27) && (layoutOf c m).hasFieldA && fa.getLsbD (j - 24))
        || (decide (21 ≤ j ∧ j < 24) && (layoutOf c m).hasFieldB && fb.getLsbD (j - 21))
        || (decide (18 ≤ j ∧ j < 21) && (layoutOf c m).hasFieldC && fc.getLsbD (j - 18))
        || (decide (j < (layoutOf c m).width) && imm.getLsbD j)) := by
  have hw : (layoutOf c m).width ≤ 31 := le_trans (width_le _) (by omega)
  simp only [pack, BitVec.getLsbD_or, BitVec.getLsbD_and, BitVec.getLsbD_shiftLeft, BitVec.getLsbD_setWidth,
    getLsbD_suppliedField, getLsbD_mask hw, hj, decide_true, Bool.true_and]
  by_cases h27 : 27 ≤ j
  · have a1 : ¬j < 27 := by omega
    have a2 : ¬j < 24 := by omega
    have a3 : ¬j < 21 := by omega
    have a4 : ¬j < 18 := by omega
    have b1 : ¬j - 24 < 3 := by omega
    have b2 : ¬j - 21 < 3 := by omega
    have b3 : ¬j - 18 < 3 := by omega
    have c1 : j - 27 < 32 := by omega
    simp [h27, a1, a2, a3, b1, b2, b3, c1, Bool.and_comm]
  · have d1 : j < 27 := by omega
    by_cases h24 : 24 ≤ j
    · have f1 : ¬j < 24 := by omega
      have f2 : ¬j < 21 := by omega
      have f3 : ¬j < 18 := by omega
      have g2 : ¬j - 21 < 3 := by omega
      have g3 : ¬j - 18 < 3 := by omega
      have g1 : j - 24 < 3 := by omega
      simp [h27, d1, h24, f1, f2, g1, g2, g3, Bool.and_comm]
    · by_cases h21 : 21 ≤ j
      · have f1 : j < 24 := by omega
        have f2 : ¬j < 21 := by omega
        have f3 : ¬j < 18 := by omega
        have g3 : ¬j - 18 < 3 := by omega
        have g2 : j - 21 < 3 := by omega
        simp [h27, d1, h24, h21, f1, f2, g2, g3, Bool.and_comm]
      · by_cases h18 : 18 ≤ j
        · have f1 : j < 24 := by omega
          have f2 : j < 21 := by omega
          have f3 : ¬j < 18 := by omega
          have g3 : j - 18 < 3 := by omega
          simp [h27, d1, h24, h21, h18, f1, f2, f3, g3, Bool.and_comm]
        · have f1 : j < 24 := by omega
          have f2 : j < 21 := by omega
          have f3 : j < 18 := by omega
          simp [h27, d1, h24, h21, h18, f1, f2, f3, Bool.and_comm]

/-- The opcode field of a packed word is the mnemonic's opcode. -/
theorem opField_pack (c : Config) (m : Mnemonic) (fa fb fc imm : Word) :
    opField (pack c m fa fb fc imm) = c.opcodeMap.code m := by
  ext j hj
  rw [opField, BitVec.getElem_extractLsb', getLsbD_pack _ _ _ _ _ _ (by omega)]
  have := width_le (layoutOf c m)
  have h1 : ¬27 + j < (layoutOf c m).width := by omega
  have h2 : 27 ≤ 27 + j := by omega
  have h3 : ¬27 + j < 27 := by omega
  have h4 : ¬27 + j < 24 := by omega
  have h5 : ¬27 + j < 21 := by omega
  simp [h1, h2, h3, h4, h5, hj, BitVec.getLsbD_eq_getElem]

end Sys2Proof
end

