-- ==== Sys2Proof/Laws/Encoding.lean ====
section
/-! SUPPORT. What the fields of a word written as an opcode and the bits below it are, and what such a word decodes to. -/

namespace Sys2Proof.Machine

/-- Every bit of a field in its place. -/
theorem getLsbD_fieldAt {n : Nat} (v : BitVec n) (k j : Nat) :
    (fieldAt v k).getLsbD j = (decide (j < 32) && !decide (j < k) && v.getLsbD (j - k)) := by
  simp only [fieldAt, BitVec.getLsbD_shiftLeft, BitVec.getLsbD_setWidth]
  by_cases h : j < 32
  · simp [h, show j - k < 32 by omega]
  · simp [h]

theorem opField_opcodeWord (op : BitVec 5) (rest : Word) (h : ∀ j, 27 ≤ j → rest.getLsbD j = false) :
    opField (opcodeWord op rest) = op := by
  ext j hj
  simp only [opField, opcodeWord, BitVec.getElem_extractLsb', BitVec.getLsbD_or, BitVec.getLsbD_shiftLeft,
    BitVec.getLsbD_setWidth, h (27 + j) (by omega)]
  simp [hj, show 27 + j < 32 by omega, show j < 32 by omega, BitVec.getLsbD_eq_getElem]

/-- Below bit 27 the word is the bits given. -/
theorem getLsbD_opcodeWord (op : BitVec 5) (rest : Word) {j : Nat} (hj : j < 27) :
    (opcodeWord op rest).getLsbD j = rest.getLsbD j := by
  simp [opcodeWord, hj]

theorem fieldA_opcodeWord (op : BitVec 5) (rest : Word) : fieldA (opcodeWord op rest) = fieldA rest := by
  ext j hj
  simp only [fieldA, BitVec.getElem_extractLsb', getLsbD_opcodeWord op rest (show 24 + j < 27 by omega)]

theorem fieldB_opcodeWord (op : BitVec 5) (rest : Word) : fieldB (opcodeWord op rest) = fieldB rest := by
  ext j hj
  simp only [fieldB, BitVec.getElem_extractLsb', getLsbD_opcodeWord op rest (show 21 + j < 27 by omega)]

theorem fieldC_opcodeWord (op : BitVec 5) (rest : Word) : fieldC (opcodeWord op rest) = fieldC rest := by
  ext j hj
  simp only [fieldC, BitVec.getElem_extractLsb', getLsbD_opcodeWord op rest (show 18 + j < 27 by omega)]

theorem imm_opcodeWord (op : BitVec 5) (rest : Word) {n : Nat} (hn : n ≤ 27) :
    opcodeWord op rest &&& mask n = rest &&& mask n := by
  ext j hj
  rw [← BitVec.getLsbD_eq_getElem, ← BitVec.getLsbD_eq_getElem]
  simp only [BitVec.getLsbD_and, getLsbD_mask (show n ≤ 31 by omega)]
  by_cases h : j < n
  · rw [getLsbD_opcodeWord op rest (by omega)]
  · simp [h]

/-- The instruction of such a word, its operands read from the bits given (30_encoding.md R53). -/
theorem decodeWord_opcodeWord {c : Config} (hc : c.wf = true) (m : Mnemonic) (rest : Word)
    (h : ∀ j, 27 ≤ j → rest.getLsbD j = false) :
    decodeWord c (opcodeWord (c.opcodeMap.code m) rest) = .ok (instrOf m
      { op := c.opcodeMap.code m, mnemonic := some m, layout := some (layoutOf c m), fa := fieldA rest,
        fb := fieldB rest, fc := fieldC rest, imm := rest &&& mask (layoutOf c m).width,
        d := roleD (layoutOf c m) m (fieldA rest), s := roleS (layoutOf c m) (fieldB rest),
        m := roleM (layoutOf c m) (fieldB rest) (fieldC rest) }) := by
  have hm := mnemonicOf_code (Config.injective_of_wf hc) m
  simp only [decodeWord, unpack, opField_opcodeWord _ _ h, hm, fieldA_opcodeWord, fieldB_opcodeWord,
    fieldC_opcodeWord, imm_opcodeWord _ _ (width_le _)]

/-- The instruction of a word is the one its opcode's mnemonic and its fields give. -/
theorem decodeWord_ok {c : Config} {w : Word} {i : Instr} (h : decodeWord c w = .ok i) :
    ∃ m, mnemonicOf c.opcodeMap (opField w) = some m ∧ i = instrOf m (unpack c w) ∧ i.mnemonic = m := by
  unfold decodeWord at h
  split at h
  · next m hm =>
    cases h
    exact ⟨m, hm, rfl, by cases m <;> rfl⟩
  · cases h

end Sys2Proof.Machine
end

