-- ==== Sys2Proof/Laws/Memory.lean ====
section
/-! SUPPORT. The laws of sparse memory: reading after writing, the canonical form, bytes and their values. -/

namespace Sys2Proof.Machine

variable {w : Nat}

/-! ### Reading after writing -/

theorem sparseRead_erase (m : List (Nat × BitVec w)) (a b : Nat) :
    sparseRead (sparseErase m a) b = if a = b then unlisted else sparseRead m b := by
  induction m with
  | nil => simp [sparseErase, sparseRead]
  | cons cell rest ih =>
    obtain ⟨k, v⟩ := cell
    simp only [sparseErase, List.filter_cons] at ih ⊢
    by_cases hk : k = a
    · subst hk
      by_cases hb : k = b <;> simp_all [sparseRead]
    · by_cases hb : k = b
      · subst hb
        simp [sparseRead, hk, Ne.symm hk]
      · simp_all [sparseRead]

theorem sparseRead_insert (m : List (Nat × BitVec w)) (a : Nat) (v : BitVec w) (b : Nat)
    (h : ∀ cell ∈ m, cell.1 ≠ a) :
    sparseRead (sparseInsert m a v) b = if a = b then v else sparseRead m b := by
  induction m with
  | nil => simp [sparseInsert, sparseRead]
  | cons cell rest ih =>
    obtain ⟨k, x⟩ := cell
    have hk : k ≠ a := h (k, x) List.mem_cons_self
    have ih := ih fun cell hc => h cell (List.mem_cons_of_mem _ hc)
    unfold sparseInsert
    split
    · simp [sparseRead]
    · by_cases hb : k = b
      · subst hb
        simp [sparseRead, Ne.symm hk]
      · simp [sparseRead, hb, ih]

theorem mem_sparseErase {m : List (Nat × BitVec w)} {a : Nat} {cell : Nat × BitVec w} :
    cell ∈ sparseErase m a ↔ cell ∈ m ∧ cell.1 ≠ a := by
  simp [sparseErase]

/-- A read after a write, whatever the list: the value written at its key, every other key as before. -/
theorem sparseRead_write (m : List (Nat × BitVec w)) (a : Nat) (v : BitVec w) (b : Nat) :
    sparseRead (sparseWrite m a v) b = if a = b then v else sparseRead m b := by
  unfold sparseWrite
  split
  · next hv => simp [sparseRead_erase, hv]
  · rw [sparseRead_insert _ _ _ _ fun cell hc => (mem_sparseErase.1 hc).2, sparseRead_erase]
    split <;> simp_all

/-- A byte of memory after a byte is written. -/
theorem Memory.read_write (m : Memory) (a : Nat) (v : Byte) (b : Nat) :
    (m.write a v).read b = if a = b then v else m.read b :=
  sparseRead_write m a v b

/-- A byte of memory after bytes are written from an address on. -/
theorem Memory.read_writeBytes (m : Memory) (a : Nat) (bs : List Byte) (b : Nat) :
    (m.writeBytes a bs).read b = if h : a ≤ b ∧ b - a < bs.length then bs[b - a]'h.2 else m.read b := by
  induction bs generalizing m a with
  | nil => simp [Memory.writeBytes]
  | cons x xs ih =>
    rw [Memory.writeBytes, ih, Memory.read_write]
    by_cases hab : a = b
    · subst hab
      simp
    · by_cases h : a + 1 ≤ b ∧ b - (a + 1) < xs.length
      · have h' : a ≤ b ∧ b - a < (x :: xs).length := by simp; omega
        rw [dif_pos h, dif_pos h', List.getElem_cons, dif_neg (by omega)]
        simp only [Nat.sub_sub]
      · have h' : ¬(a ≤ b ∧ b - a < (x :: xs).length) := by simp; omega
        rw [dif_neg h, dif_neg h', if_neg hab]

/-- A byte outside the bytes written reads as before. -/
theorem Memory.read_writeBytes_outside (m : Memory) {a b : Nat} (bs : List Byte) (h : b < a ∨ a + bs.length ≤ b) :
    (m.writeBytes a bs).read b = m.read b := by
  rw [Memory.read_writeBytes, dif_neg (by omega)]

/-- The bytes written are the bytes read back. -/
theorem Memory.readBytes_writeBytes (m : Memory) (a : Nat) (bs : List Byte) :
    (m.writeBytes a bs).readBytes a bs.length = bs := by
  induction bs generalizing m a with
  | nil => rfl
  | cons x xs ih =>
    simp only [Memory.writeBytes, List.length_cons, Memory.readBytes, ih, List.cons.injEq, and_true]
    rw [Memory.read_writeBytes_outside _ _ (Or.inl (Nat.lt_succ_self a)), Memory.read_write, if_pos rfl]

/-! ### The canonical form -/

theorem sparseWf_iff (m : List (Nat × BitVec w)) :
    sparseWf m = true ↔ m.Pairwise (fun x y => x.1 < y.1) ∧ ∀ cell ∈ m, cell.2 ≠ unlisted := by
  simp [sparseWf, List.pairwise_map]

theorem mem_sparseInsert {m : List (Nat × BitVec w)} {a : Nat} {v : BitVec w} {cell : Nat × BitVec w} :
    cell ∈ sparseInsert m a v ↔ cell = (a, v) ∨ cell ∈ m := by
  induction m with
  | nil => simp [sparseInsert]
  | cons x rest ih =>
    unfold sparseInsert
    split
    · simp
    · simp only [List.mem_cons, ih]
      tauto

theorem sparseWf_erase {m : List (Nat × BitVec w)} (h : sparseWf m = true) (a : Nat) :
    sparseWf (sparseErase m a) = true := by
  rw [sparseWf_iff] at h ⊢
  exact ⟨h.1.filter _, fun cell hc => h.2 cell (mem_sparseErase.1 hc).1⟩

theorem sparseWf_insert {m : List (Nat × BitVec w)} (h : sparseWf m = true) {a : Nat} {v : BitVec w}
    (hv : v ≠ unlisted) (ha : ∀ cell ∈ m, cell.1 ≠ a) : sparseWf (sparseInsert m a v) = true := by
  rw [sparseWf_iff] at h ⊢
  refine ⟨?_, fun cell hc => ?_⟩
  · obtain ⟨hp, -⟩ := h
    induction m with
    | nil => simp [sparseInsert]
    | cons x rest ih =>
      have hx := List.pairwise_cons.1 hp
      have hxa : x.1 ≠ a := ha x List.mem_cons_self
      unfold sparseInsert
      split
      · refine List.pairwise_cons.2 ⟨fun y hy => ?_, hp⟩
        rcases List.mem_cons.1 hy with rfl | hy
        · assumption
        · exact lt_trans ‹_› (hx.1 y hy)
      · refine List.pairwise_cons.2 ⟨fun y hy => ?_, ih (fun y hy => ha y (List.mem_cons_of_mem _ hy)) hx.2⟩
        rcases mem_sparseInsert.1 hy with rfl | hy
        · show x.1 < a
          have : ¬a < x.1 := ‹_›
          omega
        · exact hx.1 y hy
  · rcases mem_sparseInsert.1 hc with rfl | hc
    · exact hv
    · exact h.2 cell hc

/-- A write keeps the canonical form. -/
theorem sparseWf_write {m : List (Nat × BitVec w)} (h : sparseWf m = true) (a : Nat) (v : BitVec w) :
    sparseWf (sparseWrite m a v) = true := by
  unfold sparseWrite
  split
  · exact sparseWf_erase h a
  · exact sparseWf_insert (sparseWf_erase h a) ‹_› fun cell hc => (mem_sparseErase.1 hc).2

/-- The keys after a write are keys from before, or the key written. -/
theorem key_of_mem_sparseWrite {m : List (Nat × BitVec w)} {a : Nat} {v : BitVec w} {cell : Nat × BitVec w}
    (h : cell ∈ sparseWrite m a v) : cell.1 = a ∨ cell ∈ m := by
  unfold sparseWrite at h
  split at h
  · exact Or.inr (mem_sparseErase.1 h).1
  · rcases mem_sparseInsert.1 h with rfl | h
    · exact Or.inl rfl
    · exact Or.inr (mem_sparseErase.1 h).1

theorem sparseFrom_spec (vs : List (BitVec w)) (k : Nat) :
    sparseWf (sparseFrom k vs) = true ∧ ∀ cell ∈ sparseFrom k vs, k ≤ cell.1 ∧ cell.1 < k + vs.length := by
  induction vs generalizing k with
  | nil => simp [sparseFrom, sparseWf]
  | cons v vs ih =>
    obtain ⟨hwf, hkeys⟩ := ih (k + 1)
    unfold sparseFrom
    split
    · refine ⟨hwf, fun cell hc => ?_⟩
      have := hkeys cell hc
      simp only [List.length_cons]
      omega
    · rw [sparseWf_iff] at hwf ⊢
      refine ⟨⟨List.pairwise_cons.2 ⟨fun cell hc => ?_, hwf.1⟩, fun cell hc => ?_⟩, fun cell hc => ?_⟩
      · have := hkeys cell hc
        show k < cell.1
        omega
      · rcases List.mem_cons.1 hc with rfl | hc
        · assumption
        · exact hwf.2 cell hc
      · rcases List.mem_cons.1 hc with rfl | hc
        · simp
        · have := hkeys cell hc
          simp only [List.length_cons]
          omega

/-- Reading what consecutive values were laid out as. -/
theorem sparseRead_from (vs : List (BitVec w)) (k a : Nat) :
    sparseRead (sparseFrom k vs) a = if h : k ≤ a ∧ a - k < vs.length then vs[a - k]'h.2 else unlisted := by
  induction vs generalizing k with
  | nil => simp [sparseFrom, sparseRead]
  | cons v vs ih =>
    have step : sparseRead (sparseFrom k (v :: vs)) a = if k = a then v else sparseRead (sparseFrom (k + 1) vs) a := by
      rw [sparseFrom]
      split
      · next hv =>
        split
        · next hka =>
          rw [ih, dif_neg (by omega), hv]
        · rfl
      · rw [sparseRead]
    rw [step, ih]
    by_cases hka : k = a
    · subst hka
      simp
    · by_cases h : k + 1 ≤ a ∧ a - (k + 1) < vs.length
      · have h' : k ≤ a ∧ a - k < (v :: vs).length := by simp; omega
        rw [if_neg hka, dif_pos h, dif_pos h', List.getElem_cons, dif_neg (by omega)]
        simp only [Nat.sub_sub]
      · have h' : ¬(k ≤ a ∧ a - k < (v :: vs).length) := by simp; omega
        rw [dif_neg h, dif_neg h', if_neg hka]

/-- Writing a byte keeps the canonical form of memory. -/
theorem Memory.wf_write {m : Memory} (h : m.wf = true) (a : Nat) (b : Byte) : (m.write a b).wf = true :=
  sparseWf_write h a b

/-- Writing bytes keeps the canonical form of memory. -/
theorem Memory.wf_writeBytes {m : Memory} (h : m.wf = true) (a : Nat) (bs : List Byte) :
    (m.writeBytes a bs).wf = true := by
  induction bs generalizing m a with
  | nil => exact h
  | cons b bs ih => exact ih (Memory.wf_write h a b) (a + 1)

/-- The addresses listed after bytes are written were listed before, or are addresses written. -/
theorem Memory.key_of_mem_writeBytes {m : Memory} {a : Nat} {bs : List Byte} {cell : Host.Cell}
    (h : cell ∈ m.writeBytes a bs) : cell ∈ m ∨ (a ≤ cell.1 ∧ cell.1 < a + bs.length) := by
  induction bs generalizing m a with
  | nil => exact Or.inl h
  | cons b bs ih =>
    simp only [List.length_cons]
    rcases ih h with h | h
    · rcases key_of_mem_sparseWrite h with h | h
      · exact Or.inr (by omega)
      · exact Or.inl h
    · exact Or.inr (by omega)

/-! ### Bytes and their values -/

@[simp] theorem length_bytesOf (n : Nat) (v : Word) : (bytesOf n v).length = n := by
  induction n generalizing v with
  | zero => rfl
  | succ n ih => simp [bytesOf, ih]

@[simp] theorem Memory.length_readBytes (m : Memory) (a n : Nat) : (m.readBytes a n).length = n := by
  induction n generalizing a with
  | zero => rfl
  | succ n ih => simp [Memory.readBytes, ih]

/-- Byte `i` of a value holds its bits `8i+7..8i` (20_memory.md R33). -/
theorem getElem_bytesOf (n : Nat) (v : Word) (i : Nat) (h : i < (bytesOf n v).length) :
    (bytesOf n v)[i] = v.extractLsb' (8 * i) 8 := by
  induction n generalizing v i with
  | zero => simp at h
  | succ n ih =>
    cases i with
    | zero =>
      simp only [bytesOf, List.getElem_cons_zero]
      ext j hj
      simp
    | succ i =>
      simp only [bytesOf, List.getElem_cons_succ, ih]
      ext j hj
      simp only [BitVec.getElem_extractLsb', BitVec.getLsbD_ushiftRight]
      congr 1
      omega

/-- The value of the low `n` bytes of a word is the word cut to `8n` bits. -/
theorem littleEndian_bytesOf (n : Nat) (v : Word) (hn : n ≤ 4) :
    littleEndian (bytesOf n v) = (v.setWidth (8 * n)).setWidth 32 := by
  induction n generalizing v with
  | zero =>
    simp only [bytesOf, littleEndian]
    ext j hj
    simp
  | succ n ih =>
    rw [bytesOf, littleEndian, ih _ (by omega)]
    ext j hj
    simp only [BitVec.getElem_or, BitVec.getElem_setWidth, BitVec.getLsbD_setWidth, BitVec.getElem_shiftLeft,
      BitVec.getLsbD_ushiftRight]
    by_cases h8 : j < 8
    · have : j < 8 * (n + 1) := by omega
      simp [h8, this]
    · have e : 8 + (j - 8) = j := by omega
      have e2 : (j - 8 < 8 * n) = (j < 8 * (n + 1)) := by
        apply propext
        omega
      simp [h8, e2, e]

/-- All four bytes of a word give the word back. -/
@[simp] theorem littleEndian_bytesOf_four (v : Word) : littleEndian (bytesOf 4 v) = v := by
  rw [littleEndian_bytesOf 4 v (by omega)]
  simp

end Sys2Proof.Machine
end

