-- ==== Sys2Proof/Laws/State.lean ====
section
/-! SUPPORT. The small lemmas of State's updates: one per field per update, and reading a register after writing one. -/

namespace Sys2Proof.Machine

/-! ### writeReg -/

@[simp] theorem State.writeReg_config (s : State) (i : RegIdx) (v : Word) : (s.writeReg i v).config = s.config := rfl
@[simp] theorem State.writeReg_regs (s : State) (i : RegIdx) (v : Word) : (s.writeReg i v).regs = s.regs.set i.toNat v i.toNat_lt := rfl
@[simp] theorem State.writeReg_flags (s : State) (i : RegIdx) (v : Word) : (s.writeReg i v).flags = s.flags := rfl
@[simp] theorem State.writeReg_run (s : State) (i : RegIdx) (v : Word) : (s.writeReg i v).run = s.run := rfl
@[simp] theorem State.writeReg_fault (s : State) (i : RegIdx) (v : Word) : (s.writeReg i v).fault = s.fault := rfl
@[simp] theorem State.writeReg_icount (s : State) (i : RegIdx) (v : Word) : (s.writeReg i v).icount = s.icount := rfl
@[simp] theorem State.writeReg_out (s : State) (i : RegIdx) (v : Word) : (s.writeReg i v).out = s.out := rfl
@[simp] theorem State.writeReg_dmem (s : State) (i : RegIdx) (v : Word) : (s.writeReg i v).dmem = s.dmem := rfl
@[simp] theorem State.writeReg_imem (s : State) (i : RegIdx) (v : Word) : (s.writeReg i v).imem = s.imem := rfl
@[simp] theorem State.writeReg_byte (s : State) (i : RegIdx) (v : Word) (a' : Nat) : (s.writeReg i v).byte a' = s.byte a' := rfl

/-! ### setFlags -/

@[simp] theorem State.setFlags_config (s : State) (f : Flags) : (s.setFlags f).config = s.config := rfl
@[simp] theorem State.setFlags_regs (s : State) (f : Flags) : (s.setFlags f).regs = s.regs := rfl
@[simp] theorem State.setFlags_flags (s : State) (f : Flags) : (s.setFlags f).flags = f := rfl
@[simp] theorem State.setFlags_run (s : State) (f : Flags) : (s.setFlags f).run = s.run := rfl
@[simp] theorem State.setFlags_fault (s : State) (f : Flags) : (s.setFlags f).fault = s.fault := rfl
@[simp] theorem State.setFlags_icount (s : State) (f : Flags) : (s.setFlags f).icount = s.icount := rfl
@[simp] theorem State.setFlags_out (s : State) (f : Flags) : (s.setFlags f).out = s.out := rfl
@[simp] theorem State.setFlags_dmem (s : State) (f : Flags) : (s.setFlags f).dmem = s.dmem := rfl
@[simp] theorem State.setFlags_imem (s : State) (f : Flags) : (s.setFlags f).imem = s.imem := rfl
@[simp] theorem State.setFlags_readReg (s : State) (f : Flags) (j : RegIdx) : (s.setFlags f).readReg j = s.readReg j := rfl
@[simp] theorem State.setFlags_pc (s : State) (f : Flags) : (s.setFlags f).pc = s.pc := rfl
@[simp] theorem State.setFlags_sp (s : State) (f : Flags) : (s.setFlags f).sp = s.sp := rfl
@[simp] theorem State.setFlags_byte (s : State) (f : Flags) (a' : Nat) : (s.setFlags f).byte a' = s.byte a' := rfl

/-! ### setRun -/

@[simp] theorem State.setRun_config (s : State) (r : RunState) : (s.setRun r).config = s.config := rfl
@[simp] theorem State.setRun_regs (s : State) (r : RunState) : (s.setRun r).regs = s.regs := rfl
@[simp] theorem State.setRun_flags (s : State) (r : RunState) : (s.setRun r).flags = s.flags := rfl
@[simp] theorem State.setRun_run (s : State) (r : RunState) : (s.setRun r).run = r := rfl
@[simp] theorem State.setRun_fault (s : State) (r : RunState) : (s.setRun r).fault = s.fault := rfl
@[simp] theorem State.setRun_icount (s : State) (r : RunState) : (s.setRun r).icount = s.icount := rfl
@[simp] theorem State.setRun_out (s : State) (r : RunState) : (s.setRun r).out = s.out := rfl
@[simp] theorem State.setRun_dmem (s : State) (r : RunState) : (s.setRun r).dmem = s.dmem := rfl
@[simp] theorem State.setRun_imem (s : State) (r : RunState) : (s.setRun r).imem = s.imem := rfl
@[simp] theorem State.setRun_readReg (s : State) (r : RunState) (j : RegIdx) : (s.setRun r).readReg j = s.readReg j := rfl
@[simp] theorem State.setRun_pc (s : State) (r : RunState) : (s.setRun r).pc = s.pc := rfl
@[simp] theorem State.setRun_sp (s : State) (r : RunState) : (s.setRun r).sp = s.sp := rfl
@[simp] theorem State.setRun_byte (s : State) (r : RunState) (a' : Nat) : (s.setRun r).byte a' = s.byte a' := rfl

/-! ### setFault -/

@[simp] theorem State.setFault_config (s : State) (a : Word) : (s.setFault a).config = s.config := rfl
@[simp] theorem State.setFault_regs (s : State) (a : Word) : (s.setFault a).regs = s.regs := rfl
@[simp] theorem State.setFault_flags (s : State) (a : Word) : (s.setFault a).flags = s.flags := rfl
@[simp] theorem State.setFault_run (s : State) (a : Word) : (s.setFault a).run = s.run := rfl
@[simp] theorem State.setFault_fault (s : State) (a : Word) : (s.setFault a).fault = some a := rfl
@[simp] theorem State.setFault_icount (s : State) (a : Word) : (s.setFault a).icount = s.icount := rfl
@[simp] theorem State.setFault_out (s : State) (a : Word) : (s.setFault a).out = s.out := rfl
@[simp] theorem State.setFault_dmem (s : State) (a : Word) : (s.setFault a).dmem = s.dmem := rfl
@[simp] theorem State.setFault_imem (s : State) (a : Word) : (s.setFault a).imem = s.imem := rfl
@[simp] theorem State.setFault_readReg (s : State) (a : Word) (j : RegIdx) : (s.setFault a).readReg j = s.readReg j := rfl
@[simp] theorem State.setFault_pc (s : State) (a : Word) : (s.setFault a).pc = s.pc := rfl
@[simp] theorem State.setFault_sp (s : State) (a : Word) : (s.setFault a).sp = s.sp := rfl
@[simp] theorem State.setFault_byte (s : State) (a : Word) (a' : Nat) : (s.setFault a).byte a' = s.byte a' := rfl

/-! ### setDmem -/

@[simp] theorem State.setDmem_config (s : State) (m : Memory) : (s.setDmem m).config = s.config := rfl
@[simp] theorem State.setDmem_regs (s : State) (m : Memory) : (s.setDmem m).regs = s.regs := rfl
@[simp] theorem State.setDmem_flags (s : State) (m : Memory) : (s.setDmem m).flags = s.flags := rfl
@[simp] theorem State.setDmem_run (s : State) (m : Memory) : (s.setDmem m).run = s.run := rfl
@[simp] theorem State.setDmem_fault (s : State) (m : Memory) : (s.setDmem m).fault = s.fault := rfl
@[simp] theorem State.setDmem_icount (s : State) (m : Memory) : (s.setDmem m).icount = s.icount := rfl
@[simp] theorem State.setDmem_out (s : State) (m : Memory) : (s.setDmem m).out = s.out := rfl
@[simp] theorem State.setDmem_dmem (s : State) (m : Memory) : (s.setDmem m).dmem = m := rfl
@[simp] theorem State.setDmem_imem (s : State) (m : Memory) : (s.setDmem m).imem = s.imem := rfl
@[simp] theorem State.setDmem_readReg (s : State) (m : Memory) (j : RegIdx) : (s.setDmem m).readReg j = s.readReg j := rfl
@[simp] theorem State.setDmem_pc (s : State) (m : Memory) : (s.setDmem m).pc = s.pc := rfl
@[simp] theorem State.setDmem_sp (s : State) (m : Memory) : (s.setDmem m).sp = s.sp := rfl

/-! ### setImem -/

@[simp] theorem State.setImem_config (s : State) (m : ProgramArray) : (s.setImem m).config = s.config := rfl
@[simp] theorem State.setImem_regs (s : State) (m : ProgramArray) : (s.setImem m).regs = s.regs := rfl
@[simp] theorem State.setImem_flags (s : State) (m : ProgramArray) : (s.setImem m).flags = s.flags := rfl
@[simp] theorem State.setImem_run (s : State) (m : ProgramArray) : (s.setImem m).run = s.run := rfl
@[simp] theorem State.setImem_fault (s : State) (m : ProgramArray) : (s.setImem m).fault = s.fault := rfl
@[simp] theorem State.setImem_icount (s : State) (m : ProgramArray) : (s.setImem m).icount = s.icount := rfl
@[simp] theorem State.setImem_out (s : State) (m : ProgramArray) : (s.setImem m).out = s.out := rfl
@[simp] theorem State.setImem_dmem (s : State) (m : ProgramArray) : (s.setImem m).dmem = s.dmem := rfl
@[simp] theorem State.setImem_imem (s : State) (m : ProgramArray) : (s.setImem m).imem = m := rfl
@[simp] theorem State.setImem_readReg (s : State) (m : ProgramArray) (j : RegIdx) : (s.setImem m).readReg j = s.readReg j := rfl
@[simp] theorem State.setImem_pc (s : State) (m : ProgramArray) : (s.setImem m).pc = s.pc := rfl
@[simp] theorem State.setImem_sp (s : State) (m : ProgramArray) : (s.setImem m).sp = s.sp := rfl
@[simp] theorem State.setImem_byte (s : State) (m : ProgramArray) (a' : Nat) : (s.setImem m).byte a' = s.byte a' := rfl

/-! ### putByte -/

@[simp] theorem State.putByte_config (s : State) (b : Byte) : (s.putByte b).config = s.config := rfl
@[simp] theorem State.putByte_regs (s : State) (b : Byte) : (s.putByte b).regs = s.regs := rfl
@[simp] theorem State.putByte_flags (s : State) (b : Byte) : (s.putByte b).flags = s.flags := rfl
@[simp] theorem State.putByte_run (s : State) (b : Byte) : (s.putByte b).run = s.run := rfl
@[simp] theorem State.putByte_fault (s : State) (b : Byte) : (s.putByte b).fault = s.fault := rfl
@[simp] theorem State.putByte_icount (s : State) (b : Byte) : (s.putByte b).icount = s.icount := rfl
@[simp] theorem State.putByte_out (s : State) (b : Byte) : (s.putByte b).out = s.out ++ [b] := rfl
@[simp] theorem State.putByte_dmem (s : State) (b : Byte) : (s.putByte b).dmem = s.dmem := rfl
@[simp] theorem State.putByte_imem (s : State) (b : Byte) : (s.putByte b).imem = s.imem := rfl
@[simp] theorem State.putByte_readReg (s : State) (b : Byte) (j : RegIdx) : (s.putByte b).readReg j = s.readReg j := rfl
@[simp] theorem State.putByte_pc (s : State) (b : Byte) : (s.putByte b).pc = s.pc := rfl
@[simp] theorem State.putByte_sp (s : State) (b : Byte) : (s.putByte b).sp = s.sp := rfl
@[simp] theorem State.putByte_byte (s : State) (b : Byte) (a' : Nat) : (s.putByte b).byte a' = s.byte a' := rfl

/-! ### countStep -/

@[simp] theorem State.countStep_config (s : State) : (s.countStep).config = s.config := rfl
@[simp] theorem State.countStep_regs (s : State) : (s.countStep).regs = s.regs := rfl
@[simp] theorem State.countStep_flags (s : State) : (s.countStep).flags = s.flags := rfl
@[simp] theorem State.countStep_run (s : State) : (s.countStep).run = s.run := rfl
@[simp] theorem State.countStep_fault (s : State) : (s.countStep).fault = s.fault := rfl
@[simp] theorem State.countStep_icount (s : State) : (s.countStep).icount = s.icount + 1 := rfl
@[simp] theorem State.countStep_out (s : State) : (s.countStep).out = s.out := rfl
@[simp] theorem State.countStep_dmem (s : State) : (s.countStep).dmem = s.dmem := rfl
@[simp] theorem State.countStep_imem (s : State) : (s.countStep).imem = s.imem := rfl
@[simp] theorem State.countStep_readReg (s : State) (j : RegIdx) : (s.countStep).readReg j = s.readReg j := rfl
@[simp] theorem State.countStep_pc (s : State) : (s.countStep).pc = s.pc := rfl
@[simp] theorem State.countStep_sp (s : State) : (s.countStep).sp = s.sp := rfl
@[simp] theorem State.countStep_byte (s : State) (a' : Nat) : (s.countStep).byte a' = s.byte a' := rfl

/-! ### Reading registers -/

/-- A register reads as the last value written to it (10_state.md R15, R16). -/
theorem State.readReg_writeReg (s : State) (i j : RegIdx) (v : Word) :
    (s.writeReg i v).readReg j = if i = j then v else s.readReg j := by
  simp only [State.readReg, State.writeReg, Vector.getElem_set, BitVec.toNat_inj]

@[simp] theorem State.readReg_writeReg_self (s : State) (i : RegIdx) (v : Word) :
    (s.writeReg i v).readReg i = v := by
  simp [State.readReg_writeReg]

theorem State.readReg_writeReg_of_ne (s : State) {i j : RegIdx} (h : i ≠ j) (v : Word) :
    (s.writeReg i v).readReg j = s.readReg j := by
  simp [State.readReg_writeReg, h]

theorem State.pc_eq (s : State) : s.pc = s.readReg pcReg := rfl

theorem State.sp_eq (s : State) : s.sp = s.readReg spReg := rfl

theorem State.pc_writeReg (s : State) (i : RegIdx) (v : Word) :
    (s.writeReg i v).pc = if i = pcReg then v else s.pc :=
  s.readReg_writeReg i pcReg v

theorem State.sp_writeReg (s : State) (i : RegIdx) (v : Word) :
    (s.writeReg i v).sp = if i = spReg then v else s.sp :=
  s.readReg_writeReg i spReg v

/-- Writing back the value read changes nothing. -/
theorem State.writeReg_readReg (s : State) (i : RegIdx) : s.writeReg i (s.readReg i) = s := by
  simp [State.writeReg, State.readReg]

/-- Two register files that read alike are equal. -/
theorem regs_ext {s t : State} (h : ∀ i : RegIdx, s.readReg i = t.readReg i) : s.regs = t.regs := by
  ext k hk : 1
  have := h (BitVec.ofNat 3 k)
  have e : k % 8 = k := Nat.mod_eq_of_lt hk
  simpa [State.readReg, e] using this

end Sys2Proof.Machine
end

