-- ==== Sys2Proof/Laws/Ops.lean ====
section
/-! SUPPORT. For each shared operation, everything it can do, said once. -/

namespace Sys2Proof.Machine

/-! ### The sequential advance -/

@[simp] theorem State.advance_config (s : State) (m : Mnemonic) (w : List RegIdx) (a : Word) :
    (s.advance m w a).config = s.config := by
  unfold State.advance
  (repeat' split) <;> rfl

@[simp] theorem State.advance_flags (s : State) (m : Mnemonic) (w : List RegIdx) (a : Word) :
    (s.advance m w a).flags = s.flags := by
  unfold State.advance
  (repeat' split) <;> rfl

@[simp] theorem State.advance_run (s : State) (m : Mnemonic) (w : List RegIdx) (a : Word) :
    (s.advance m w a).run = s.run := by
  unfold State.advance
  (repeat' split) <;> rfl

@[simp] theorem State.advance_fault (s : State) (m : Mnemonic) (w : List RegIdx) (a : Word) :
    (s.advance m w a).fault = s.fault := by
  unfold State.advance
  (repeat' split) <;> rfl

@[simp] theorem State.advance_icount (s : State) (m : Mnemonic) (w : List RegIdx) (a : Word) :
    (s.advance m w a).icount = s.icount := by
  unfold State.advance
  (repeat' split) <;> rfl

@[simp] theorem State.advance_out (s : State) (m : Mnemonic) (w : List RegIdx) (a : Word) :
    (s.advance m w a).out = s.out := by
  unfold State.advance
  (repeat' split) <;> rfl

@[simp] theorem State.advance_dmem (s : State) (m : Mnemonic) (w : List RegIdx) (a : Word) :
    (s.advance m w a).dmem = s.dmem := by
  unfold State.advance
  (repeat' split) <;> rfl

@[simp] theorem State.advance_imem (s : State) (m : Mnemonic) (w : List RegIdx) (a : Word) :
    (s.advance m w a).imem = s.imem := by
  unfold State.advance
  (repeat' split) <;> rfl

@[simp] theorem State.advance_byte (s : State) (m : Mnemonic) (w : List RegIdx) (a : Word) (b : Nat) :
    (s.advance m w a).byte b = s.byte b := by
  simp [State.byte]

/-- The advance writes no register but the PC. -/
theorem State.advance_readReg (s : State) (m : Mnemonic) (w : List RegIdx) (a : Word) {r : RegIdx} (h : r ≠ pcReg) :
    (s.advance m w a).readReg r = s.readReg r := by
  unfold State.advance
  (repeat' split) <;> simp [State.readReg_writeReg, Ne.symm h]

/-- A control handler's PC stands (40_engine.md R74). -/
theorem State.advance_control (s : State) {m : Mnemonic} (w : List RegIdx) (a : Word) (h : isControl m = true) :
    s.advance m w a = s := by
  simp [State.advance, h]

/-- The PC after a non-control handler (R74). -/
theorem State.advance_pc (s : State) {m : Mnemonic} (w : List RegIdx) (a : Word) (h : isControl m = false) :
    (s.advance m w a).pc =
      if s.config.r7WriteAdvance then s.pc + 4#32 else if pcReg ∈ w then s.pc else a + 4#32 := by
  unfold State.advance
  (repeat' split) <;> simp_all [State.pc]

/-! ### Instructions that retire after one kind of update -/

/-- The end of a non-control instruction that wrote one register: `copy` is what its handler left, less that write. -/
theorem writesOne_of_done {st copy : State} {m : Mnemonic} (hm : isControl m = false) (d : RegIdx) (v : Word)
    (hc : copy.config = st.config) (hr : ∀ r, copy.readReg r = st.readReg r) :
    WritesOne st ((copy.writeReg d v).advance m [d] st.pc).countStep d v := by
  have hpc : copy.pc = st.pc := hr pcReg
  refine ⟨?_, fun hd => ?_, fun r h7 hd => ?_⟩
  · simp only [State.countStep_pc, State.advance_pc _ _ _ hm, State.pc_writeReg, State.writeReg_config, hc, hpc,
      List.mem_singleton, sequentialPc, eq_comm (a := pcReg)]
    by_cases h : d = pcReg <;> simp [h]
  · simp [State.advance_readReg _ _ _ _ hd]
  · simp [State.advance_readReg _ _ _ _ h7, State.readReg_writeReg, Ne.symm hd, hr]

/-- The same for two registers, the second write winning. -/
theorem writesTwo_of_done {st : State} {m : Mnemonic} (hm : isControl m = false) (d : RegIdx) (v : Word)
    (e : RegIdx) (u : Word) :
    WritesTwo st (((st.writeReg d v).writeReg e u).advance m [d, e] st.pc).countStep d v e u := by
  refine ⟨?_, fun he => ?_, fun hd hde => ?_, fun r h7 hd he => ?_⟩
  · simp only [State.countStep_pc, State.advance_pc _ _ _ hm, State.pc_writeReg, State.writeReg_config,
      List.mem_cons, List.not_mem_nil, or_false, sequentialPc, eq_comm (a := pcReg)]
    by_cases h : e = pcReg <;> by_cases h' : d = pcReg <;> simp [h, h']
  · simp [State.advance_readReg _ _ _ _ he]
  · simp [State.advance_readReg _ _ _ _ hd, State.readReg_writeReg, Ne.symm hde]
  · simp [State.advance_readReg _ _ _ _ h7, State.readReg_writeReg, Ne.symm hd, Ne.symm he]

/-- The same for an instruction that writes no register: the PC alone moves on. -/
theorem writesOnlyPc_of_done {st copy : State} {m : Mnemonic} (hm : isControl m = false) {w : List RegIdx}
    (hw : pcReg ∉ w) (hc : copy.config = st.config) (hr : ∀ r, copy.readReg r = st.readReg r) :
    WritesOnlyPc st (copy.advance m w st.pc).countStep (st.pc + 4#32) := by
  have hpc : copy.pc = st.pc := hr pcReg
  refine ⟨?_, fun r h7 => ?_⟩
  · simp [State.advance_pc _ _ _ hm, hc, hpc, hw]
  · simp [State.advance_readReg _ _ _ _ h7, hr]

/-- The same for a control handler: the PC is the one the handler wrote (40_engine.md R74). -/
theorem writesOnlyPc_of_control {st : State} {m : Mnemonic} (hm : isControl m = true) (w : List RegIdx) (v : Word) :
    WritesOnlyPc st ((st.writeReg pcReg v).advance m w st.pc).countStep v := by
  rw [State.advance_control _ _ _ hm]
  refine ⟨by simp [State.pc], fun r hr => ?_⟩
  simp [State.readReg_writeReg, Ne.symm hr]

/-- The rest of what retiring an instruction leaves, when its handler left it. -/
theorem completes_of_done {st copy : State} {m : Mnemonic} {w : List RegIdx} {a : Word}
    (hc : copy.config = st.config) (hr : copy.run = st.run) (hf : copy.fault = st.fault)
    (hn : copy.icount = st.icount) (hm : copy.imem = st.imem) :
    Completes st (copy.advance m w a).countStep copy.flags :=
  ⟨by simp [hc], by simp, by simp [hr], by simp [hf], by simp [hn], by simp [hm]⟩

/-- An instruction whose handler left `DMEM` and the stream alone keeps memory. -/
theorem keepsMemory_of_done {st copy : State} {m : Mnemonic} {w : List RegIdx} {a : Word}
    (ho : copy.out = st.out) (hd : copy.dmem = st.dmem) : KeepsMemory st (copy.advance m w a).countStep :=
  ⟨by simp [ho], by simp [State.byte, hd]⟩

/-! ### The memory interface -/

/-- Everything a data read can do (20_memory.md R35). -/
theorem State.memRead_eq (s : State) (a : Word) (n : Size) :
    s.memRead a n = if a.toNat + n.bytes ≤ s.config.memSize
      then .ok (littleEndian (s.dmem.readBytes a.toNat n.bytes)) else .error a := by
  simp [State.memRead, inRange]

/-- The value of bytes in memory, bit by bit. -/
theorem getLsbD_littleEndian_readBytes (m : Memory) (a n k : Nat) (hn : n ≤ 4) (hk : k < 32) :
    (littleEndian (m.readBytes a n)).getLsbD k =
      if k < 8 * n then (m.read (a + k / 8)).getLsbD (k % 8) else false := by
  induction n generalizing a k with
  | zero => simp [Memory.readBytes, littleEndian]
  | succ n ih =>
    simp only [Memory.readBytes, littleEndian, BitVec.getLsbD_or, BitVec.getLsbD_setWidth, BitVec.getLsbD_shiftLeft, hk,
      decide_true, Bool.true_and]
    by_cases h8 : k < 8
    · have e0 : k / 8 = 0 := by omega
      have e1 : k % 8 = k := by omega
      simp [h8, e0, e1, show k < 8 * (n + 1) by omega]
    · have e0 : a + 1 + (k - 8) / 8 = a + k / 8 := by omega
      have e1 : (k - 8) % 8 = k % 8 := by omega
      rw [ih (a + 1) (k - 8) (by omega) (by omega), e0, e1]
      have hge : (m.read a).getLsbD k = false := BitVec.getLsbD_of_ge _ _ (by omega)
      by_cases hn8 : k < 8 * (n + 1)
      · simp [h8, hge, hn8, show k - 8 < 8 * n by omega]
      · simp [h8, hge, hn8, show ¬k - 8 < 8 * n by omega]

theorem Size.bytes_le (n : Size) : n.bytes ≤ 4 := by
  cases n <;> decide

/-- What a successful data read returns (R33, R35). -/
theorem State.readsAs_of_memRead (s : State) (a n : Nat) (hn : n ≤ 4) :
    ReadsAs s a n false (littleEndian (s.dmem.readBytes a n)) :=
  fun k hk => getLsbD_littleEndian_readBytes s.dmem a n k hn hk

/-- Everything a data write can do: the console store, the store, or the fault (20_memory.md R36, R37). -/
theorem State.memWrite_eq (s : State) (a : Word) (n : Size) (v : Word) :
    s.memWrite a n v = if n = .byte ∧ a = s.config.consoleAddr then .ok (s.putByte (v.setWidth 8))
      else if a.toNat + n.bytes ≤ s.config.memSize
        then .ok (s.setDmem (s.dmem.writeBytes a.toNat (bytesOf n.bytes v)))
        else .error a := by
  simp [State.memWrite, inRange]

/-- What a store leaves in memory (R33, R36). -/
theorem stores_writeBytes {s t : State} (a n : Nat) (v : Word) (ho : t.out = s.out)
    (ht : ∀ b, t.byte b = (s.dmem.writeBytes a (bytesOf n v)).read b) : Stores s t a n v := by
  refine ⟨ho, fun i hi => ?_, fun b hb => ?_⟩
  · rw [ht, Memory.read_writeBytes, dif_pos (by simp; omega), getElem_bytesOf]
    congr 2
    omega
  · rw [ht, Memory.read_writeBytes_outside _ _ (by simpa using hb)]
    rfl

/-- A data write changes no register, flag, parameter or record, and no `IMEM`. -/
theorem State.memWrite_frame {s t : State} {a : Word} {n : Size} {v : Word} (h : s.memWrite a n v = .ok t) :
    t.config = s.config ∧ t.regs = s.regs ∧ t.flags = s.flags ∧ t.run = s.run ∧ t.fault = s.fault ∧
      t.icount = s.icount ∧ t.imem = s.imem := by
  rw [State.memWrite_eq] at h
  split at h
  · cases h
    simp
  · split at h <;> cases h
    simp

/-- Everything a push can do (42_load_store.md R99, R100). -/
theorem State.pushWord_eq (s : State) (v : Word) :
    s.pushWord v = if (pushTarget s.config.stackMode s.sp).toNat + 4 ≤ s.config.memSize
      then .ok ((s.setDmem (s.dmem.writeBytes (pushTarget s.config.stackMode s.sp).toNat (bytesOf 4 v))).writeReg spReg
        (s.sp - 4#32))
      else .error (pushTarget s.config.stackMode s.sp) := by
  have e : s.pushAddress = pushTarget s.config.stackMode s.sp := by
    unfold State.pushAddress pushTarget
    rfl
  rw [State.pushWord, e, State.memWrite_eq, if_neg (by simp)]
  by_cases h : (pushTarget s.config.stackMode s.sp).toNat + 4 ≤ s.config.memSize
  · have h' : (pushTarget s.config.stackMode s.sp).toNat + Size.word.bytes ≤ s.config.memSize := h
    rw [if_pos h, if_pos h']
    rfl
  · have h' : ¬(pushTarget s.config.stackMode s.sp).toNat + Size.word.bytes ≤ s.config.memSize := h
    rw [if_neg h, if_neg h']

/-- The address a pop reads (R99). -/
theorem State.popAddress_eq (s : State) : s.popAddress = popTarget s.config.stackMode s.sp := by
  unfold State.popAddress popTarget
  rfl

/-! ### Fetch -/

/-- Everything a fetch can do (20_memory.md R38). -/
theorem State.fetch_eq (s : State) (a : Word) :
    s.fetch a = if s.canFetch a = true then .ok (s.fetchedWord a) else .error a := rfl

theorem State.canFetch_iff (s : State) : s.canFetch s.pc = true ↔ Fetchable s := by
  unfold State.canFetch Fetchable inRange
  split <;> simp

theorem fetchReads_iff (s : State) (w : Word) : FetchReads s w ↔ w = s.fetchedWord s.pc := by
  unfold FetchReads State.fetchedWord
  split
  · rfl
  · constructor
    · intro h
      apply BitVec.eq_of_getLsbD_eq
      intro j hj
      rw [h j hj, getLsbD_littleEndian_readBytes _ _ 4 _ (by omega) hj]
      rfl
    · rintro rfl
      exact State.readsAs_of_memRead s _ 4 (by omega)

/-! ### How a step ends -/

theorem State.faultStep_takes (s : State) (f : Word) : TakesFault s (s.faultStep f) f := by
  unfold TakesFault State.faultStep
  split <;> rfl

theorem State.undefinedStop_stops (s : State) : StopsUndefined s s.undefinedStop := rfl

/-- Everything the end of a dispatched step can do (40_engine.md R71): the copy is committed, or the fault is taken, or the
machine stops undefined. -/
theorem endStep_cases {st t : State} {m : Mnemonic} {w : List RegIdx} {o : HandlerOutcome}
    (h : endStep st m w o = .next t) :
    (∃ copy, o = .done copy ∧ t = (copy.advance m w st.pc).countStep) ∨
      (∃ f, o = .memoryFault f ∧ TakesFault st t f) ∨ (∃ r, o = .undefined r ∧ StopsUndefined st t) := by
  cases o with
  | done copy =>
    cases h
    exact Or.inl ⟨copy, rfl, rfl⟩
  | memoryFault f =>
    cases h
    exact Or.inr (Or.inl ⟨f, rfl, st.faultStep_takes f⟩)
  | undefined r =>
    cases h
    exact Or.inr (Or.inr ⟨r, rfl, st.undefinedStop_stops⟩)

/-- What the end of a step leaves of a part of the state that neither the PC's advance, nor `RUN`, nor `FAULT` touches. -/
theorem endStep_keeps {α : Type} (part : State → α)
    (hadvance : ∀ (c : State) m w a, part (c.advance m w a).countStep = part c)
    (hrun : ∀ (c : State) r, part (c.setRun r) = part c) (hfault : ∀ (c : State) f, part (c.setFault f) = part c)
    {st t : State} {m : Mnemonic} {w : List RegIdx} {o : HandlerOutcome} (h : endStep st m w o = .next t)
    (ho : ∀ copy, o = .done copy → part copy = part st) : part t = part st := by
  cases o with
  | done copy =>
    cases h
    rw [hadvance]
    exact ho _ rfl
  | memoryFault f =>
    cases h
    unfold State.faultStep
    split <;> simp only [hrun, hfault]
  | undefined r =>
    cases h
    exact hrun _ _

/-- A dispatched step always ends in a next state. -/
theorem endStep_next (st : State) (m : Mnemonic) (w : List RegIdx) (o : HandlerOutcome) :
    ∃ t, endStep st m w o = .next t := by
  cases o <;> exact ⟨_, rfl⟩

end Sys2Proof.Machine
end

