-- ==== Sys2Proof/Laws/Exec.lean ====
section
/-! SUPPORT. What executing an instruction can do, said once for all instructions. -/

namespace Sys2Proof.Machine

/-! ### Each instruction as the end of a step around its handler -/

theorem exec_and (d s : RegIdx) (st : State) :
    exec (.and d s) st = endStep st .and [d] (handleAnd d s st) := rfl

theorem exec_or (d s : RegIdx) (st : State) :
    exec (.or d s) st = endStep st .or [d] (handleOr d s st) := rfl

theorem exec_xor (d s : RegIdx) (st : State) :
    exec (.xor d s) st = endStep st .xor [d] (handleXor d s st) := rfl

theorem exec_not (d s : RegIdx) (st : State) :
    exec (.not d s) st = endStep st .not [d] (handleNot d s st) := rfl

theorem exec_add (d s : RegIdx) (st : State) :
    exec (.add d s) st = endStep st .add [d] (handleAdd d s st) := rfl

theorem exec_adc (d s : RegIdx) (st : State) :
    exec (.adc d s) st = endStep st .adc [d] (handleAdc d s st) := rfl

theorem exec_sub (d s : RegIdx) (st : State) :
    exec (.sub d s) st = endStep st .sub [d] (handleSub d s st) := rfl

theorem exec_cmp (d s : RegIdx) (st : State) :
    exec (.cmp d s) st = endStep st .cmp [] (handleCmp d s st) := rfl

theorem exec_xchg (d s : RegIdx) (st : State) :
    exec (.xchg d s) st = endStep st .xchg [d, s] (handleXchg d s st) := rfl

theorem exec_mult (d s : RegIdx) (st : State) :
    exec (.mult d s) st = endStep st .mult [d, s] (handleMult d s st) := rfl

theorem exec_div (d s : RegIdx) (st : State) :
    exec (.div d s) st = endStep st .div [d, s] (handleDiv d s st) := rfl

theorem exec_mov (d s : RegIdx) (st : State) :
    exec (.mov d s) st = endStep st .mov [d] (handleMov d s st) := rfl

theorem exec_load (d s : RegIdx) (m : BitVec 3) (imm : BitVec 18) (st : State) :
    exec (.load d s m imm) st = endStep st .load [d] (handleLoad d s m imm st) := rfl

theorem exec_store (d s : RegIdx) (m : BitVec 3) (imm : BitVec 18) (st : State) :
    exec (.store d s m imm) st = endStep st .store [] (handleStore d s m imm st) := rfl

theorem exec_push (d : RegIdx) (st : State) :
    exec (.push d) st = endStep st .push [spReg] (handlePush d st) := rfl

theorem exec_pop (d : RegIdx) (st : State) :
    exec (.pop d) st = endStep st .pop [d, spReg] (handlePop d st) := rfl

theorem exec_moviu (d : RegIdx) (imm : BitVec 16) (st : State) :
    exec (.moviu d imm) st = endStep st .moviu [d] (handleMoviu d imm st) := rfl

theorem exec_addi (d : RegIdx) (imm : BitVec 24) (st : State) :
    exec (.addi d imm) st = endStep st .addi [d] (handleAddi d imm st) := rfl

theorem exec_addiu (d : RegIdx) (imm : BitVec 24) (st : State) :
    exec (.addiu d imm) st = endStep st .addiu [d] (handleAddiu d imm st) := rfl

theorem exec_cmpiu (d : RegIdx) (imm : BitVec 24) (st : State) :
    exec (.cmpiu d imm) st = endStep st .cmpiu [] (handleCmpiu d imm st) := rfl

theorem exec_shift (d : RegIdx) (m : BitVec 3) (imm : BitVec 21) (st : State) :
    exec (.shift d m imm) st = endStep st .shift [d] (handleShift d m imm st) := rfl

theorem exec_jne (imm : BitVec 27) (st : State) :
    exec (.jne imm) st = endStep st .jne [pcReg] (handleJne imm st) := rfl

theorem exec_jl (imm : BitVec 27) (st : State) :
    exec (.jl imm) st = endStep st .jl [pcReg] (handleJl imm st) := rfl

theorem exec_jsr (d : RegIdx) (imm : BitVec 27) (st : State) :
    exec (.jsr d imm) st = endStep st .jsr [d, pcReg] (handleJsr d imm st) := rfl

theorem exec_jmp (imm : BitVec 27) (st : State) :
    exec (.jmp imm) st = endStep st .jmp [pcReg] (handleJmp imm st) := rfl

theorem exec_jr (d : RegIdx) (imm : BitVec 24) (st : State) :
    exec (.jr d imm) st = endStep st .jr [pcReg] (handleJr d imm st) := rfl

theorem exec_sys (imm : BitVec 27) (st : State) :
    exec (.sys imm) st = endStep st .sys [spReg, pcReg] (handleSys imm st) := rfl

theorem exec_swapcc (d : RegIdx) (st : State) :
    exec (.swapcc d) st = endStep st .swapcc [d] (handleSwapcc d st) := rfl

theorem exec_halt (st : State) :
    exec .halt st = endStep st .halt [] (handleHalt st) := rfl

/-! ### What every handler leaves alone -/

/-- What a handler that completes leaves alone, whatever the instruction: the parameters, `FAULT`, `ICOUNT`, `IMEM`, the run
state but for HALT, and every register the table of 10_state.md R19 does not list for it. -/
structure HandlerFrame (i : Instr) (s copy : State) : Prop where
  config : copy.config = s.config
  fault : copy.fault = s.fault
  icount : copy.icount = s.icount
  imem : copy.imem = s.imem
  run : copy.run = if i = .halt then .halted else s.run
  regs : ∀ r, r ∉ listedWrites i → copy.readReg r = s.readReg r

theorem HandlerFrame.of_writeReg {i : Instr} {s copy : State} (hi : i ≠ .halt) (hc : copy.config = s.config)
    (hf : copy.fault = s.fault) (hn : copy.icount = s.icount) (hm : copy.imem = s.imem) (hr : copy.run = s.run)
    (hx : ∀ r, copy.readReg r = s.readReg r) {d : RegIdx} {v : Word} (hd : d ∈ listedWrites i) :
    HandlerFrame i s (copy.writeReg d v) where
  config := hc
  fault := hf
  icount := hn
  imem := hm
  run := by simp [hi, hr]
  regs r hr := by
    have : d ≠ r := fun e => hr (e ▸ hd)
    rw [State.readReg_writeReg, if_neg this, hx]

theorem HandlerFrame.of_writeReg_twice {i : Instr} {s copy : State} (hi : i ≠ .halt) (hc : copy.config = s.config)
    (hf : copy.fault = s.fault) (hn : copy.icount = s.icount) (hm : copy.imem = s.imem) (hr : copy.run = s.run)
    (hx : ∀ r, copy.readReg r = s.readReg r) {d e : RegIdx} {v u : Word} (hd : d ∈ listedWrites i)
    (he : e ∈ listedWrites i) : HandlerFrame i s ((copy.writeReg d v).writeReg e u) where
  config := hc
  fault := hf
  icount := hn
  imem := hm
  run := by simp [hi, hr]
  regs r hr := by
    have h1 : d ≠ r := fun e => hr (e ▸ hd)
    have h2 : e ≠ r := fun e => hr (e ▸ he)
    rw [State.readReg_writeReg, if_neg h2, State.readReg_writeReg, if_neg h1, hx]

/-- Every instruction is the end of a step around its handler's outcome, and a handler that completes keeps to its frame
(40_engine.md R71; 10_state.md R19). -/
theorem exec_eq_endStep (i : Instr) (s : State) :
    ∃ o, exec i s = endStep s i.mnemonic (listedWrites i) o ∧ ∀ copy, o = .done copy → HandlerFrame i s copy := by
  cases i with
  | and d r =>
    refine ⟨_, exec_and d r s, fun copy h => ?_⟩
    cases h
    apply HandlerFrame.of_writeReg <;> first | rfl | exact fun _ => rfl | simp [listedWrites]
  | or d r =>
    refine ⟨_, exec_or d r s, fun copy h => ?_⟩
    cases h
    apply HandlerFrame.of_writeReg <;> first | rfl | exact fun _ => rfl | simp [listedWrites]
  | xor d r =>
    refine ⟨_, exec_xor d r s, fun copy h => ?_⟩
    cases h
    apply HandlerFrame.of_writeReg <;> first | rfl | exact fun _ => rfl | simp [listedWrites]
  | not d r =>
    refine ⟨_, exec_not d r s, fun copy h => ?_⟩
    cases h
    apply HandlerFrame.of_writeReg <;> first | rfl | exact fun _ => rfl | simp [listedWrites]
  | add d r =>
    refine ⟨_, exec_add d r s, fun copy h => ?_⟩
    cases h
    apply HandlerFrame.of_writeReg <;> first | rfl | exact fun _ => rfl | simp [listedWrites]
  | adc d r =>
    refine ⟨_, exec_adc d r s, fun copy h => ?_⟩
    cases h
    apply HandlerFrame.of_writeReg <;> first | rfl | exact fun _ => rfl | simp [listedWrites]
  | sub d r =>
    refine ⟨_, exec_sub d r s, fun copy h => ?_⟩
    cases h
    apply HandlerFrame.of_writeReg <;> first | rfl | exact fun _ => rfl | simp [listedWrites]
  | mov d r =>
    refine ⟨_, exec_mov d r s, fun copy h => ?_⟩
    cases h
    apply HandlerFrame.of_writeReg <;> first | rfl | exact fun _ => rfl | simp [listedWrites]
  | moviu d imm =>
    refine ⟨_, exec_moviu d imm s, fun copy h => ?_⟩
    cases h
    apply HandlerFrame.of_writeReg <;> first | rfl | exact fun _ => rfl | simp [listedWrites]
  | addi d imm =>
    refine ⟨_, exec_addi d imm s, fun copy h => ?_⟩
    cases h
    apply HandlerFrame.of_writeReg <;> first | rfl | exact fun _ => rfl | simp [listedWrites]
  | addiu d imm =>
    refine ⟨_, exec_addiu d imm s, fun copy h => ?_⟩
    cases h
    apply HandlerFrame.of_writeReg <;> first | rfl | exact fun _ => rfl | simp [listedWrites]
  | swapcc d =>
    refine ⟨_, exec_swapcc d s, fun copy h => ?_⟩
    cases h
    apply HandlerFrame.of_writeReg <;> first | rfl | exact fun _ => rfl | simp [listedWrites]
  | cmp d r =>
    refine ⟨_, exec_cmp d r s, fun copy h => ?_⟩
    cases h
    exact ⟨rfl, rfl, rfl, rfl, rfl, fun _ _ => rfl⟩
  | cmpiu d imm =>
    refine ⟨_, exec_cmpiu d imm s, fun copy h => ?_⟩
    cases h
    exact ⟨rfl, rfl, rfl, rfl, rfl, fun _ _ => rfl⟩
  | xchg d r =>
    refine ⟨_, exec_xchg d r s, fun copy h => ?_⟩
    cases h
    apply HandlerFrame.of_writeReg_twice <;> first | rfl | exact fun _ => rfl | simp [listedWrites]
  | mult d r =>
    refine ⟨_, exec_mult d r s, fun copy h => ?_⟩
    cases h
    apply HandlerFrame.of_writeReg_twice <;> first | rfl | exact fun _ => rfl | simp [listedWrites]
  | div d r =>
    refine ⟨_, exec_div d r s, fun copy h => ?_⟩
    unfold handleDiv at h
    split at h <;> cases h
    apply HandlerFrame.of_writeReg_twice <;> first | rfl | exact fun _ => rfl | simp [listedWrites]
  | load d r m imm =>
    refine ⟨_, exec_load d r m imm s, fun copy h => ?_⟩
    unfold handleLoad at h
    split at h
    · cases h
    · split at h <;> cases h
      apply HandlerFrame.of_writeReg <;> first | rfl | exact fun _ => rfl | simp [listedWrites]
  | store d r m imm =>
    refine ⟨_, exec_store d r m imm s, fun copy h => ?_⟩
    unfold handleStore at h
    split at h
    · cases h
    · split at h
      · next hw =>
        cases h
        obtain ⟨h1, h2, h3, h4, h5, h6, h7⟩ := State.memWrite_frame hw
        exact ⟨h1, h5, h6, h7, by simp [h4], fun r _ => by simp [State.readReg, h2]⟩
      · cases h
  | push d =>
    refine ⟨_, exec_push d s, fun copy h => ?_⟩
    unfold handlePush at h
    rw [State.pushWord_eq] at h
    by_cases hb : (pushTarget s.config.stackMode s.sp).toNat + 4 ≤ s.config.memSize
    · rw [if_pos hb] at h
      cases h
      apply HandlerFrame.of_writeReg <;> first | rfl | exact fun _ => rfl | simp [listedWrites]
    · rw [if_neg hb] at h
      cases h
  | pop d =>
    refine ⟨_, exec_pop d s, fun copy h => ?_⟩
    unfold handlePop at h
    split at h <;> cases h
    apply HandlerFrame.of_writeReg_twice <;> first | rfl | exact fun _ => rfl | simp [listedWrites]
  | shift d m imm =>
    refine ⟨_, exec_shift d m imm s, fun copy h => ?_⟩
    unfold handleShift at h
    split at h <;> cases h
    apply HandlerFrame.of_writeReg <;> first | rfl | exact fun _ => rfl | simp [listedWrites]
  | jne imm =>
    refine ⟨_, exec_jne imm s, fun copy h => ?_⟩
    cases h
    apply HandlerFrame.of_writeReg <;> first | rfl | exact fun _ => rfl | simp [listedWrites]
  | jl imm =>
    refine ⟨_, exec_jl imm s, fun copy h => ?_⟩
    cases h
    apply HandlerFrame.of_writeReg <;> first | rfl | exact fun _ => rfl | simp [listedWrites]
  | jmp imm =>
    refine ⟨_, exec_jmp imm s, fun copy h => ?_⟩
    cases h
    apply HandlerFrame.of_writeReg <;> first | rfl | exact fun _ => rfl | simp [listedWrites]
  | jr d imm =>
    refine ⟨_, exec_jr d imm s, fun copy h => ?_⟩
    cases h
    apply HandlerFrame.of_writeReg <;> first | rfl | exact fun _ => rfl | simp [listedWrites]
  | jsr d imm =>
    refine ⟨_, exec_jsr d imm s, fun copy h => ?_⟩
    cases h
    apply HandlerFrame.of_writeReg_twice <;> first | rfl | exact fun _ => rfl | simp [listedWrites]
  | sys imm =>
    refine ⟨_, exec_sys imm s, fun copy h => ?_⟩
    unfold handleSys at h
    rw [State.pushWord_eq] at h
    by_cases hb : (pushTarget s.config.stackMode s.sp).toNat + 4 ≤ s.config.memSize
    · rw [if_pos hb] at h
      cases h
      apply HandlerFrame.of_writeReg_twice <;> first | rfl | exact fun _ => rfl | simp [listedWrites]
    · rw [if_neg hb] at h
      cases h
  | halt =>
    refine ⟨_, exec_halt s, fun copy h => ?_⟩
    cases h
    exact ⟨rfl, rfl, rfl, rfl, rfl, fun _ _ => rfl⟩

/-- Everything executing an instruction can do. -/
theorem exec_cases {i : Instr} {s t : State} (h : exec i s = .next t) :
    (∃ copy, HandlerFrame i s copy ∧ t = (copy.advance i.mnemonic (listedWrites i) s.pc).countStep) ∨
      (∃ f, TakesFault s t f) ∨ StopsUndefined s t := by
  obtain ⟨o, ho, hf⟩ := exec_eq_endStep i s
  rw [ho] at h
  rcases endStep_cases h with ⟨copy, hc, ht⟩ | ⟨f, -, ht⟩ | ⟨r, -, ht⟩
  · exact Or.inl ⟨copy, hf copy hc, ht⟩
  · exact Or.inr (Or.inl ⟨f, ht⟩)
  · exact Or.inr (Or.inr ht)

/-- Everything an instruction can do to `DMEM` and the console stream. -/
theorem exec_memory {i : Instr} {s t : State} (h : exec i s = .next t) :
    (t.dmem = s.dmem ∧ t.out = s.out) ∨
      (∃ d b imm, i = .store d b 1#3 imm ∧ s.effectiveAddress b imm = s.config.consoleAddr ∧ t.dmem = s.dmem ∧
        t.out = s.out ++ [(s.readReg d).setWidth 8]) ∨
      ((i.mnemonic = .store ∨ i.mnemonic = .push ∨ i.mnemonic = .sys) ∧ t.out = s.out ∧
        ∃ (a n : Nat) (v : Word), a + n ≤ s.config.memSize ∧ t.dmem = s.dmem.writeBytes a (bytesOf n v)) := by
  have keep : ∀ {m : Mnemonic} {w : List RegIdx} {o : HandlerOutcome}, endStep s m w o = .next t →
      (∀ copy, o = .done copy → copy.dmem = s.dmem ∧ copy.out = s.out) → t.dmem = s.dmem ∧ t.out = s.out := by
    intro m w o h ho
    have := endStep_keeps (fun c => (c.dmem, c.out)) (by simp) (by simp) (by simp) h
      (by simpa using ho)
    simpa using this
  cases i with
  | store d b m imm =>
    rw [exec_store, handleStore] at h
    cases hm : accessSize m with
    | none => rw [hm] at h; cases h; exact .inl ⟨rfl, rfl⟩
    | some n =>
      simp only [hm, State.memWrite_eq] at h
      by_cases hc : n = .byte ∧ s.effectiveAddress b imm = s.config.consoleAddr
      · simp only [if_pos hc] at h
        have m1 : m = 1#3 := by
          rw [hc.1] at hm
          unfold accessSize at hm
          by_contra hne
          simp only [if_neg hne] at hm
          split at hm <;> first | cases hm | (split at hm <;> cases hm)
        subst m1
        cases h
        exact .inr (.inl ⟨d, b, imm, rfl, hc.2, by simp, by simp⟩)
      · simp only [if_neg hc] at h
        by_cases hb : (s.effectiveAddress b imm).toNat + n.bytes ≤ s.config.memSize
        · simp only [if_pos hb] at h
          cases h
          exact .inr (.inr ⟨.inl rfl, by simp, _, _, _, hb, by simp; rfl⟩)
        · simp only [if_neg hb] at h
          exact .inl (keep h (by simp))
  | push d =>
    rw [exec_push, handlePush, State.pushWord_eq] at h
    by_cases hb : (pushTarget s.config.stackMode s.sp).toNat + 4 ≤ s.config.memSize
    · simp only [if_pos hb] at h
      cases h
      exact .inr (.inr ⟨.inr (.inl rfl), by simp, _, _, _, hb, by simp; rfl⟩)
    · simp only [if_neg hb] at h
      exact .inl (keep h (by simp))
  | sys imm =>
    rw [exec_sys, handleSys, State.pushWord_eq] at h
    by_cases hb : (pushTarget s.config.stackMode s.sp).toNat + 4 ≤ s.config.memSize
    · simp only [if_pos hb] at h
      cases h
      exact .inr (.inr ⟨.inr (.inr rfl), by simp, _, _, _, hb, by simp; rfl⟩)
    · simp only [if_neg hb] at h
      exact .inl (keep h (by simp))
  | load d b m imm =>
    refine .inl (keep ((exec_load d b m imm s).symm.trans h) fun copy hc => ?_)
    unfold handleLoad at hc
    split at hc
    · cases hc
    · split at hc <;> cases hc; exact ⟨rfl, rfl⟩
  | div d b =>
    refine .inl (keep ((exec_div d b s).symm.trans h) fun copy hc => ?_)
    unfold handleDiv at hc
    split at hc <;> cases hc; exact ⟨rfl, rfl⟩
  | pop d =>
    refine .inl (keep ((exec_pop d s).symm.trans h) fun copy hc => ?_)
    unfold handlePop at hc
    split at hc <;> cases hc; exact ⟨rfl, rfl⟩
  | shift d m imm =>
    refine .inl (keep ((exec_shift d m imm s).symm.trans h) fun copy hc => ?_)
    unfold handleShift at hc
    split at hc <;> cases hc; exact ⟨rfl, rfl⟩
  | and d b => exact .inl (keep ((exec_and d b s).symm.trans h) fun _ hc => by cases hc; exact ⟨rfl, rfl⟩)
  | or d b => exact .inl (keep ((exec_or d b s).symm.trans h) fun _ hc => by cases hc; exact ⟨rfl, rfl⟩)
  | xor d b => exact .inl (keep ((exec_xor d b s).symm.trans h) fun _ hc => by cases hc; exact ⟨rfl, rfl⟩)
  | not d b => exact .inl (keep ((exec_not d b s).symm.trans h) fun _ hc => by cases hc; exact ⟨rfl, rfl⟩)
  | add d b => exact .inl (keep ((exec_add d b s).symm.trans h) fun _ hc => by cases hc; exact ⟨rfl, rfl⟩)
  | adc d b => exact .inl (keep ((exec_adc d b s).symm.trans h) fun _ hc => by cases hc; exact ⟨rfl, rfl⟩)
  | sub d b => exact .inl (keep ((exec_sub d b s).symm.trans h) fun _ hc => by cases hc; exact ⟨rfl, rfl⟩)
  | cmp d b => exact .inl (keep ((exec_cmp d b s).symm.trans h) fun _ hc => by cases hc; exact ⟨rfl, rfl⟩)
  | xchg d b => exact .inl (keep ((exec_xchg d b s).symm.trans h) fun _ hc => by cases hc; exact ⟨rfl, rfl⟩)
  | mult d b => exact .inl (keep ((exec_mult d b s).symm.trans h) fun _ hc => by cases hc; exact ⟨rfl, rfl⟩)
  | mov d b => exact .inl (keep ((exec_mov d b s).symm.trans h) fun _ hc => by cases hc; exact ⟨rfl, rfl⟩)
  | moviu d imm => exact .inl (keep ((exec_moviu d imm s).symm.trans h) fun _ hc => by cases hc; exact ⟨rfl, rfl⟩)
  | addi d imm => exact .inl (keep ((exec_addi d imm s).symm.trans h) fun _ hc => by cases hc; exact ⟨rfl, rfl⟩)
  | addiu d imm => exact .inl (keep ((exec_addiu d imm s).symm.trans h) fun _ hc => by cases hc; exact ⟨rfl, rfl⟩)
  | cmpiu d imm => exact .inl (keep ((exec_cmpiu d imm s).symm.trans h) fun _ hc => by cases hc; exact ⟨rfl, rfl⟩)
  | jsr d imm => exact .inl (keep ((exec_jsr d imm s).symm.trans h) fun _ hc => by cases hc; exact ⟨rfl, rfl⟩)
  | jr d imm => exact .inl (keep ((exec_jr d imm s).symm.trans h) fun _ hc => by cases hc; exact ⟨rfl, rfl⟩)
  | jne imm => exact .inl (keep ((exec_jne imm s).symm.trans h) fun _ hc => by cases hc; exact ⟨rfl, rfl⟩)
  | jl imm => exact .inl (keep ((exec_jl imm s).symm.trans h) fun _ hc => by cases hc; exact ⟨rfl, rfl⟩)
  | jmp imm => exact .inl (keep ((exec_jmp imm s).symm.trans h) fun _ hc => by cases hc; exact ⟨rfl, rfl⟩)
  | swapcc d => exact .inl (keep ((exec_swapcc d s).symm.trans h) fun _ hc => by cases hc; exact ⟨rfl, rfl⟩)
  | halt => exact .inl (keep ((exec_halt s).symm.trans h) fun _ hc => by cases hc; exact ⟨rfl, rfl⟩)

/-- Everything a step can do: it happens only when running, and then fetches, decodes and executes (R70, R71). -/
theorem step_cases {s t : State} (h : step s = .next t) :
    s.run = .running ∧
      ((∃ f, TakesFault s t f) ∨ StopsUndefined s t ∨
        ∃ w i, s.fetch s.pc = .ok w ∧ decodeWord s.config w = .ok i ∧ exec i s = .next t) := by
  unfold step guardedStep at h
  split at h
  · next hr =>
    refine ⟨hr, ?_⟩
    unfold runningStep at h
    split at h
    · cases h
      exact Or.inl ⟨_, s.faultStep_takes _⟩
    · next w hw =>
      split at h
      · cases h
        exact Or.inr (Or.inl s.undefinedStop_stops)
      · next i hi =>
        exact Or.inr (Or.inr ⟨w, i, hw, hi, h⟩)
  · cases h
  · cases h

end Sys2Proof.Machine
end

