-- ==== Sys2Proof/Laws/Operands.lean ====
section
/-! SUPPORT. Each operand form as the extension of its immediate (30_encoding.md R56), and the widening of a load. -/

namespace Sys2Proof.Machine

@[simp] theorem accessSize_bytes (n : Size) : accessSize (BitVec.ofNat 3 n.bytes) = some n := by
  cases n <;> decide

theorem State.effectiveAddress_eq (st : State) (s : RegIdx) (imm : BitVec 18) :
    st.effectiveAddress s imm = st.readReg s + imm.signExtend 32 := by
  rw [State.effectiveAddress, offsetOf, sext_setWidth (by omega) (by omega)]

theorem signedImmediate_eq (imm : BitVec 24) : signedImmediate imm = imm.signExtend 32 :=
  sext_setWidth (by omega) (by omega) imm

theorem unsignedImmediate_eq (imm : BitVec 24) : unsignedImmediate imm = imm.setWidth 32 :=
  zext_setWidth (by omega) imm

theorem displacement27_eq (imm : BitVec 27) : displacement27 imm = imm.signExtend 32 <<< 2 := by
  rw [displacement27, sext_setWidth (by omega) (by omega)]

theorem displacement24_eq (imm : BitVec 24) : displacement24 imm = imm.signExtend 32 <<< 2 := by
  rw [displacement24, sext_setWidth (by omega) (by omega)]

theorem vectorAddress_eq (imm : BitVec 27) : vectorAddress imm = imm.setWidth 32 <<< 2 := by
  rw [vectorAddress, zext_setWidth (by omega)]

theorem shiftAmount_eq (imm : BitVec 21) : shiftAmount imm = imm.toNat % 32 := by
  simp [shiftAmount, BitVec.extractLsb'_toNat]

/-- What a widened load holds, bit by bit (42_load_store.md R97). -/
theorem readsAs_widen (s : State) (a : Nat) (n : Size) (ext : LoadExt) :
    ReadsAs s a n.bytes (decide (ext = .sign) && (s.byte (a + (n.bytes - 1))).getLsbD 7)
      (widen ext n (littleEndian (s.dmem.readBytes a n.bytes))) := by
  have h1 : ReadsAs s a 1 false _ := State.readsAs_of_memRead s a 1 (by omega)
  have h2 : ReadsAs s a 2 false _ := State.readsAs_of_memRead s a 2 (by omega)
  have h4 : ReadsAs s a 4 false _ := State.readsAs_of_memRead s a 4 (by omega)
  intro k hk
  rcases n with _ | _ | _ <;> cases ext
  · show (zext 8 (littleEndian (s.dmem.readBytes a 1))).getLsbD k = if k < 8 then _ else _
    rw [getLsbD_zext (by omega), h1 k hk]
    by_cases h : k < 8 <;> simp [h]
  · show (sext 8 (littleEndian (s.dmem.readBytes a 1))).getLsbD k = if k < 8 then _ else _
    rw [getLsbD_sext (by omega) _ hk, h1 k hk, h1 7 (by omega)]
    by_cases h : k < 8 <;> simp [h, Size.bytes]
  · show (zext 16 (littleEndian (s.dmem.readBytes a 2))).getLsbD k = if k < 16 then _ else _
    rw [getLsbD_zext (by omega), h2 k hk]
    by_cases h : k < 16 <;> simp [h]
  · show (sext 16 (littleEndian (s.dmem.readBytes a 2))).getLsbD k = if k < 16 then _ else _
    rw [getLsbD_sext (by omega) _ hk, h2 k hk, h2 15 (by omega)]
    by_cases h : k < 16 <;> simp [h, Size.bytes]
  · show (littleEndian (s.dmem.readBytes a 4)).getLsbD k = if k < 32 then _ else _
    rw [h4 k hk]
    simp [hk]
  · show (littleEndian (s.dmem.readBytes a 4)).getLsbD k = if k < 32 then _ else _
    rw [h4 k hk]
    simp [hk]

end Sys2Proof.Machine
end

