-- ==== Sys2Proof/Laws/PerInstr.lean ====
section
/-! SUPPORT. The families of facts stated of every instruction as syntax. EncodesItsOpcode: bits 31:27 of an instruction's
word are the opcode `OPCODE_MAP` gives its mnemonic (30_encoding.md R47, R54). -/

namespace Sys2Proof.Laws.EncodesItsOpcode

def Statement (i : Instr) : Prop := ∀ c : Config, opField (encodeWord c i) = c.opcodeMap.code i.mnemonic

theorem and (d s : RegIdx) : Statement (.and d s) := fun c => opField_pack c .and _ _ _ _
theorem or (d s : RegIdx) : Statement (.or d s) := fun c => opField_pack c .or _ _ _ _
theorem xor (d s : RegIdx) : Statement (.xor d s) := fun c => opField_pack c .xor _ _ _ _
theorem not (d s : RegIdx) : Statement (.not d s) := fun c => opField_pack c .not _ _ _ _
theorem add (d s : RegIdx) : Statement (.add d s) := fun c => opField_pack c .add _ _ _ _
theorem adc (d s : RegIdx) : Statement (.adc d s) := fun c => opField_pack c .adc _ _ _ _
theorem sub (d s : RegIdx) : Statement (.sub d s) := fun c => opField_pack c .sub _ _ _ _
theorem cmp (d s : RegIdx) : Statement (.cmp d s) := fun c => opField_pack c .cmp _ _ _ _
theorem xchg (d s : RegIdx) : Statement (.xchg d s) := fun c => opField_pack c .xchg _ _ _ _
theorem mult (d s : RegIdx) : Statement (.mult d s) := fun c => opField_pack c .mult _ _ _ _
theorem div (d s : RegIdx) : Statement (.div d s) := fun c => opField_pack c .div _ _ _ _
theorem mov (d s : RegIdx) : Statement (.mov d s) := fun c => opField_pack c .mov _ _ _ _
theorem load (d s : RegIdx) (m : BitVec 3) (imm : BitVec 18) : Statement (.load d s m imm) := fun c => opField_pack c .load _ _ _ _
theorem store (d s : RegIdx) (m : BitVec 3) (imm : BitVec 18) : Statement (.store d s m imm) := fun c => opField_pack c .store _ _ _ _
theorem push (d : RegIdx) : Statement (.push d) := fun c => opField_pack c .push _ _ _ _
theorem pop (d : RegIdx) : Statement (.pop d) := fun c => opField_pack c .pop _ _ _ _
theorem moviu (d : RegIdx) (imm : BitVec 16) : Statement (.moviu d imm) := fun c => opField_pack c .moviu _ _ _ _
theorem addi (d : RegIdx) (imm : BitVec 24) : Statement (.addi d imm) := fun c => opField_pack c .addi _ _ _ _
theorem addiu (d : RegIdx) (imm : BitVec 24) : Statement (.addiu d imm) := fun c => opField_pack c .addiu _ _ _ _
theorem cmpiu (d : RegIdx) (imm : BitVec 24) : Statement (.cmpiu d imm) := fun c => opField_pack c .cmpiu _ _ _ _
theorem shift (d : RegIdx) (m : BitVec 3) (imm : BitVec 21) : Statement (.shift d m imm) := fun c => opField_pack c .shift _ _ _ _
theorem jne (imm : BitVec 27) : Statement (.jne imm) := fun c => opField_pack c .jne _ _ _ _
theorem jl (imm : BitVec 27) : Statement (.jl imm) := fun c => opField_pack c .jl _ _ _ _
theorem jsr (d : RegIdx) (imm : BitVec 27) : Statement (.jsr d imm) := fun c => opField_pack c .jsr _ _ _ _
theorem jmp (imm : BitVec 27) : Statement (.jmp imm) := fun c => opField_pack c .jmp _ _ _ _
theorem jr (d : RegIdx) (imm : BitVec 24) : Statement (.jr d imm) := fun c => opField_pack c .jr _ _ _ _
theorem sys (imm : BitVec 27) : Statement (.sys imm) := fun c => opField_pack c .sys _ _ _ _
theorem swapcc (d : RegIdx) : Statement (.swapcc d) := fun c => opField_pack c .swapcc _ _ _ _
theorem halt : Statement .halt := fun c => opField_pack c .halt _ _ _ _

end Sys2Proof.Laws.EncodesItsOpcode
end

