-- ==== Sys2Proof/Tests/Slice0.lean ====
section
/-! SUPPORT. Small tests: words written out from the spec's encodings and what they decode to, well-formedness, one step of
each instruction from the vectors of 95_test_vectors.md (V, F), and for each statement with hypotheses a state that meets
them. Expected results are the spec's, never the model's own. -/

namespace Sys2Proof.Tests
open Sys2Proof Sys2Proof.Machine

/-! ## Helpers -/

/-- No flag set. -/
def noFlags : Flags := ⟨false, false, false, false⟩

/-- The start of a step vector (95_test_vectors.md, conventions): the reset state with parameters `c`, the PC at `pc`, the
word `w` where it fetches, some registers, flags and words of `DMEM`. -/
def start (c : Config) (pc w : Word) (regs : List (RegIdx × Word)) (f : Flags) (words : List (Nat × Word)) : State :=
  let s := (State.resetWith c).writeReg pcReg pc
  let s := regs.foldl (fun s r => s.writeReg r.1 r.2) s
  let s := words.foldl (fun s m => s.setDmem (s.dmem.writeBytes m.1 (bytesOf 4 m.2))) s
  (s.setFlags f).placeWord w

/-- The step answers a next state that meets `p`. -/
def meets (o : Host.Outcome State Fault Refusal) (p : State → Bool) : Bool :=
  match o with
  | .next t => p t
  | .fault _ => false
  | .refused _ => false

theorem exists_of_meets {o : Host.Outcome State Fault Refusal} {p : State → Bool} (h : meets o p = true) :
    ∃ t, o = .next t ∧ p t = true := by
  cases o with
  | next t => exact ⟨t, rfl, h⟩
  | fault f => cases h
  | refused r => cases h

/-- The word at an address of `DMEM`. -/
def wordAt (t : State) (a : Nat) : Word := littleEndian (t.dmem.readBytes a 4)

def harvardConfig : Config := { referenceConfig with harvard := true, imemWords := 16 }
def l24Config : Config := { referenceConfig with jsrLayout := .l24 }

/-! ## Well-formed instructions -/

/-- JSR under L27: a link register that is not imm[26:24] stands in no word (30_encoding.md R52). -/
theorem test_wf_refuses_l27_jsr : Instr.wf referenceConfig (.jsr 1 0x7FFFFE0) = false := by decide
/-- JSR under L24: an immediate of more than 24 bits stands in no word (R52). -/
theorem test_wf_refuses_l24_jsr : Instr.wf l24Config (.jsr 1 0x1000000) = false := by decide
theorem test_wf_accepts_jsr :
    Instr.wf referenceConfig (.jsr 7 0x7FFFFE0) = true ∧ Instr.wf l24Config (.jsr 7 0xFFFFE0) = true := by decide
/-- A reserved size and a reserved shift kind are well formed: they decode, and stop when executed (R64). -/
theorem test_wf_accepts_reserved :
    Instr.wf referenceConfig (.load 1 2 3 0) = true ∧ Instr.wf referenceConfig (.shift 1 5 1) = true := by decide

/-! ## Decoding: words written out from the encodings, field by field -/

/-- The layouts of 30_encoding.md R49, each field in its place: opcode, FA, FB, FC and the immediate. -/
theorem test_decode_layouts :
    decodeWord referenceConfig (0b00000#5 ++ 0b001#3 ++ 0b010#3 ++ 0b101#3 ++ 0xFC5#18) = .ok (.and 1 2) ∧
    decodeWord referenceConfig (0b01101#5 ++ 0b001#3 ++ 0b010#3 ++ 0b100#3 ++ 0x3FFF8#18) = .ok (.store 1 2 4 0x3FFF8) ∧
    decodeWord referenceConfig (0b10000#5 ++ 0b110#3 ++ 0b11111111#8 ++ 0x1234#16) = .ok (.moviu 6 0x1234) ∧
    decodeWord referenceConfig (0b10100#5 ++ 0b001#3 ++ 0b011#3 ++ 0x100004#21) = .ok (.shift 1 3 0x100004) ∧
    decodeWord referenceConfig (0b10001#5 ++ 0b001#3 ++ 0x800001#24) = .ok (.addi 1 0x800001) ∧
    decodeWord referenceConfig (0b10101#5 ++ 0x4000001#27) = .ok (.jne 0x4000001) ∧
    decodeWord referenceConfig (0b10111#5 ++ 0b101#3 ++ 0x000001#24) = .ok (.jsr 5 0x5000001) ∧
    decodeWord l24Config (0b10111#5 ++ 0b101#3 ++ 0x800001#24) = .ok (.jsr 5 0x800001) := by decide

/-- The example words of 41_register_alu.md R83 to R94. -/
theorem test_decode_register_alu :
    decodeWord referenceConfig 0x01400000 = .ok (.and 1 2) ∧ decodeWord referenceConfig 0x09400000 = .ok (.or 1 2) ∧
    decodeWord referenceConfig 0x11400000 = .ok (.xor 1 2) ∧ decodeWord referenceConfig 0x19400000 = .ok (.not 1 2) ∧
    decodeWord referenceConfig 0x21400000 = .ok (.add 1 2) ∧ decodeWord referenceConfig 0x29400000 = .ok (.adc 1 2) ∧
    decodeWord referenceConfig 0x31400000 = .ok (.sub 1 2) ∧ decodeWord referenceConfig 0x39400000 = .ok (.cmp 1 2) ∧
    decodeWord referenceConfig 0x41400000 = .ok (.xchg 1 2) ∧ decodeWord referenceConfig 0x49400000 = .ok (.mult 1 2) ∧
    decodeWord referenceConfig 0x51400000 = .ok (.div 1 2) ∧
    decodeWord referenceConfig 0x59400000 = .ok (.mov 1 2) := by decide

/-- The example words of 42_load_store.md and V27, V35, V40, V44. -/
theorem test_decode_load_store :
    decodeWord referenceConfig 0x61500008 = .ok (.load 1 2 4 8) ∧
    decodeWord referenceConfig 0x6147FFFF = .ok (.load 1 2 1 0x3FFFF) ∧
    decodeWord referenceConfig 0x6907FFFF = .ok (.store 1 0 1 0x3FFFF) ∧
    decodeWord referenceConfig 0x73000000 = .ok (.push 3) ∧
    decodeWord referenceConfig 0x7C000000 = .ok (.pop 4) := by decide

/-- The example words of 43_immediate.md R102 to R106. -/
theorem test_decode_immediate :
    decodeWord referenceConfig 0x81001234 = .ok (.moviu 1 0x1234) ∧
    decodeWord referenceConfig 0x89FFFFFD = .ok (.addi 1 0xFFFFFD) ∧
    decodeWord referenceConfig 0x91FFFFFF = .ok (.addiu 1 0xFFFFFF) ∧
    decodeWord referenceConfig 0x99000005 = .ok (.cmpiu 1 5) ∧
    decodeWord referenceConfig 0xA1600004 = .ok (.shift 1 3 4) := by decide

/-- The example words of 44_control.md R109 to R114. -/
theorem test_decode_control :
    decodeWord referenceConfig 0xAFFFFFE0 = .ok (.jne 0x7FFFFE0) ∧
    decodeWord referenceConfig 0xB0000040 = .ok (.jl 0x40) ∧
    decodeWord referenceConfig 0xBFFFFFE0 = .ok (.jsr 7 0x7FFFFE0) ∧
    decodeWord referenceConfig 0xC0000010 = .ok (.jmp 0x10) ∧
    decodeWord referenceConfig 0xCB000002 = .ok (.jr 3 2) ∧
    decodeWord referenceConfig 0xD0000010 = .ok (.sys 0x10) := by decide

/-- The example words of 45_system.md R115, R116, and the unassigned opcodes (V83, U3). -/
theorem test_decode_system :
    decodeWord referenceConfig 0xD9000000 = .ok (.swapcc 1) ∧ decodeWord referenceConfig 0xE0000000 = .ok .halt ∧
    decodeWord referenceConfig 0xE7FFFFFF = .ok .halt ∧
    decodeWord referenceConfig 0xE8000000 = .error (.unassignedOpcode 29) ∧
    decodeWord referenceConfig 0xFFFFFFFF = .error (.unassignedOpcode 31) := by decide

/-- Bytes decode least significant first (30_encoding.md R46), and too few of them are refused by name. -/
theorem test_decode_bytes :
    decode referenceConfig [0x08, 0x00, 0x50, 0x61, 0xAA] = .ok (.load 1 2 4 8, [0xAA]) ∧
    decode referenceConfig [0x08, 0x00, 0x50] = .error (.truncated 3) := by decide

/-- The Pack vectors K1 to K6 of 95_test_vectors.md section 2.2. -/
theorem test_pack :
    pack referenceConfig .and 9 10 11 0x3F = 0x014C003F ∧ pack referenceConfig .jmp 7 7 7 0x7FFFFFF = 0xC7FFFFFF ∧
    pack referenceConfig .addi 7 7 7 0xFFFFFF = 0x8FFFFFFF ∧ pack referenceConfig .shift 1 3 7 4 = 0xA1600004 ∧
    pack referenceConfig .load 1 2 4 (-8#32) = 0x6153FFF8 ∧
    pack referenceConfig .moviu 1 7 7 0xFFFFFFFF = 0x81FCFFFF := by decide

/-- ImmEncode vectors E3, E5, E6, E8, E10, E13, E15 of section 2.3. -/
theorem test_imm_encode :
    immEncode 0xFFFFFFFF 16 false 0 false 0 = ⟨0xFFFF, false, true⟩ ∧
    immEncode 0x102 27 true 2 false 0 = ⟨0x40, true, false⟩ ∧
    immEncode 0x80 27 true 2 true 0x100 = ⟨0x7FFFFE0, false, false⟩ ∧
    immEncode 0x10000000 27 true 2 false 0 = ⟨0x4000000, false, false⟩ ∧
    immEncode 0x20000000 27 false 2 false 0 = ⟨0, false, true⟩ ∧
    immEncode 0xFFFDFFFF 18 true 0 false 0 = ⟨0x1FFFF, false, false⟩ ∧
    immEncode 0x80000000 27 true 2 true 0 = ⟨0, false, true⟩ := by decide

/-- Source lines of R109, R113 and V49 as the assembler packs them. -/
theorem test_assemble :
    assemble referenceConfig 0x100 .jne ⟨0, 0, 0, 0x80⟩ = 0xAFFFFFE0 ∧
    assemble referenceConfig 0x100 .jr ⟨7, 0, 0, -4#32⟩ = 0xCFFFFFFF ∧
    assemble referenceConfig 0 .moviu ⟨1, 0, 0, 0x12345⟩ = 0x81002345 ∧
    assemble referenceConfig 0 .store ⟨1, 0, 1, -1#32⟩ = 0x6907FFFF := by decide

/-! ## One step of each instruction (95_test_vectors.md section 3) -/

/-- V1. -/
theorem test_and :
    meets (step (start referenceConfig 0 0x01400000 [(1, 0xF0F0F0F0), (2, 0xFF00FF00)] noFlags []))
      (fun t => t.readReg 1 == 0xF000F000 && t.pc == 4 && t.icount == 1) = true := by decide

/-- V2: AND writes the PC, and 4 is added (R74). -/
theorem test_and_pc :
    meets (step (start referenceConfig 0x100 0x07200000 [(1, 0xFFFFFFF0)] noFlags []))
      (fun t => t.pc == 0x104 && t.icount == 1) = true := by decide

/-- V3. -/
theorem test_or :
    meets (step (start referenceConfig 0 0x09400000 [(1, 0xF0F0F0F0), (2, 0x0F00FF00)] noFlags []))
      (fun t => t.readReg 1 == 0xFFF0FFF0 && t.pc == 4) = true := by decide

/-- V4. -/
theorem test_xor :
    meets (step (start referenceConfig 0 0x13600000 [(3, 0xDEADBEEF)] noFlags []))
      (fun t => t.readReg 3 == 0 && t.pc == 4) = true := by decide

/-- V5. -/
theorem test_not :
    meets (step (start referenceConfig 0 0x19400000 [(1, 0x12345678), (2, 0xFFFF)] noFlags []))
      (fun t => t.readReg 1 == 0xFFFF0000 && t.readReg 2 == 0xFFFF) = true := by decide

/-- V6. -/
theorem test_add_carry :
    meets (step (start referenceConfig 0 0x21400000 [(1, 0xFFFFFFFF), (2, 1)] noFlags []))
      (fun t => t.readReg 1 == 0 && t.flags == ⟨false, false, false, true⟩) = true := by decide

/-- V7: a signed overflow is not flagged. -/
theorem test_add_overflow :
    meets (step (start referenceConfig 0 0x21400000 [(1, 0x7FFFFFFF), (2, 1)] ⟨false, false, false, true⟩ []))
      (fun t => t.readReg 1 == 0x80000000 && t.flags == noFlags) = true := by decide

/-- V8. -/
theorem test_adc :
    meets (step (start referenceConfig 0 0x29400000 [(1, 5), (2, 7)] ⟨false, false, false, true⟩ []))
      (fun t => t.readReg 1 == 0x0D && t.flags == noFlags) = true := by decide

/-- V9. -/
theorem test_adc_carry :
    meets (step (start referenceConfig 0 0x29400000 [(1, 0xFFFFFFFF), (2, 0)] ⟨false, false, false, true⟩ []))
      (fun t => t.readReg 1 == 0 && t.flags == ⟨false, false, false, true⟩) = true := by decide

/-- V10: C is kept. -/
theorem test_sub :
    meets (step (start referenceConfig 0 0x31400000 [(1, 3), (2, 5)] ⟨false, false, false, true⟩ []))
      (fun t => t.readReg 1 == 0xFFFFFFFE && t.flags == ⟨false, false, false, true⟩) = true := by decide

/-- V11. -/
theorem test_cmp_less :
    meets (step (start referenceConfig 0 0x39400000 [(1, 0xFFFFFFFF), (2, 1)] noFlags []))
      (fun t => t.flags == ⟨true, false, false, false⟩ && t.pc == 4) = true := by decide

/-- V12. -/
theorem test_cmp_greater :
    meets (step (start referenceConfig 0 0x39400000 [(1, 0x7FFFFFFF), (2, 0x80000000)] noFlags []))
      (fun t => t.flags == ⟨false, false, true, false⟩) = true := by decide

/-- V14. -/
theorem test_xchg :
    meets (step (start referenceConfig 0 0x41400000 [(1, 0xAAAA), (2, 0xBBBB)] noFlags []))
      (fun t => t.readReg 1 == 0xBBBB && t.readReg 2 == 0xAAAA) = true := by decide

/-- V15. -/
theorem test_xchg_pc :
    meets (step (start referenceConfig 0x40 0x41E00000 [(1, 0x200)] noFlags []))
      (fun t => t.readReg 1 == 0x40 && t.pc == 0x204) = true := by decide

/-- V16. -/
theorem test_mult :
    meets (step (start referenceConfig 0 0x49400000 [(1, 0xFFFFFFFF), (2, 2)] noFlags []))
      (fun t => t.readReg 1 == 0xFFFFFFFF && t.readReg 2 == 0xFFFFFFFE) = true := by decide

/-- V18: the low half is written second. -/
theorem test_mult_same :
    meets (step (start referenceConfig 0 0x4B600000 [(3, 0x10001)] noFlags []))
      (fun t => t.readReg 3 == 0x20001) = true := by decide

/-- V19: -7 / 2. -/
theorem test_div :
    meets (step (start referenceConfig 0 0x51400000 [(1, 0xFFFFFFF9), (2, 2)] noFlags []))
      (fun t => t.readReg 1 == 0xFFFFFFFD && t.readReg 2 == 0xFFFFFFFF) = true := by decide

/-- V21: the undefined stop. -/
theorem test_div_zero :
    meets (step (start referenceConfig 0 0x51400000 [(1, 7), (2, 0)] noFlags []))
      (fun t => t.run == .undefined && t.icount == 0 && t.pc == 0 && t.readReg 1 == 7) = true := by decide

/-- V23. -/
theorem test_mov_from_pc :
    meets (step (start referenceConfig 0x20 0x59E00000 [] noFlags []))
      (fun t => t.readReg 1 == 0x20 && t.pc == 0x24) = true := by decide

/-- V30. -/
theorem test_load_unaligned :
    meets (step (start referenceConfig 0 0x61500001 [(2, 0x100)] noFlags [(0x100, 0x11223344), (0x104, 0x55667788)]))
      (fun t => t.readReg 1 == 0x88112233) = true := by decide

/-- V35: the byte goes to the stream, not to memory. -/
theorem test_store_console :
    meets (step (start referenceConfig 0 0x6907FFFF [(1, 0x1248)] noFlags []))
      (fun t => t.out == [0x48] && t.byte 0xFFFFFFFF == 0 && t.icount == 1) = true := by decide

/-- V38. -/
theorem test_store_half :
    meets (step (start referenceConfig 0 0x69480003 [(1, 0xABCD1234), (2, 0x100)] noFlags []))
      (fun t => t.byte 0x103 == 0x34 && t.byte 0x104 == 0x12 && t.byte 0x105 == 0) = true := by decide

/-- V41: SP is read before it changes. -/
theorem test_push_sp :
    meets (step (start referenceConfig 0 0x76000000 [(6, 0x1000)] noFlags []))
      (fun t => t.readReg 6 == 0xFFC && wordAt t 0xFFC == 0x1000 && t.pc == 4) = true := by decide

/-- V45. -/
theorem test_pop_sp :
    meets (step (start referenceConfig 0 0x7E000000 [(6, 0xFFC)] noFlags [(0xFFC, 0x2000)]))
      (fun t => t.readReg 6 == 0x2004 && t.pc == 4) = true := by decide

/-- V46. -/
theorem test_pop_pc :
    meets (step (start referenceConfig 0 0x7F000000 [(6, 0xFFC)] noFlags [(0xFFC, 0x40)]))
      (fun t => t.readReg 6 == 0x1000 && t.pc == 0x44) = true := by decide

/-- V48. -/
theorem test_moviu :
    meets (step (start referenceConfig 0 0x81001234 [(1, 0xFFFFFFFF)] noFlags []))
      (fun t => t.readReg 1 == 0x12340000 && t.pc == 4) = true := by decide

/-- V50. -/
theorem test_addi :
    meets (step (start referenceConfig 0 0x89FFFFFD [(1, 10)] noFlags []))
      (fun t => t.readReg 1 == 7) = true := by decide

/-- V52. -/
theorem test_addiu :
    meets (step (start referenceConfig 0 0x91FFFFFF [(1, 5)] noFlags []))
      (fun t => t.readReg 1 == 0x01000004) = true := by decide

/-- V53: C is kept. -/
theorem test_addiu_wrap :
    meets (step (start referenceConfig 0 0x91000001 [(1, 0xFFFFFFFF)] noFlags []))
      (fun t => t.readReg 1 == 0 && t.flags == noFlags) = true := by decide

/-- V54: the upper byte is ignored. -/
theorem test_cmpiu_equal :
    meets (step (start referenceConfig 0 0x99000005 [(1, 0x12000005)] noFlags []))
      (fun t => t.flags == ⟨false, true, false, false⟩) = true := by decide

/-- V55. -/
theorem test_cmpiu_less :
    meets (step (start referenceConfig 0 0x99000005 [(1, 0xFF000004)] noFlags []))
      (fun t => t.flags == ⟨true, false, false, false⟩) = true := by decide

/-- V60. -/
theorem test_shift_right :
    meets (step (start referenceConfig 0 0xA1600004 [(1, 0x80000011)] noFlags []))
      (fun t => t.readReg 1 == 0xF8000001) = true := by decide

/-- V62: the count is the low five bits. -/
theorem test_shift_by_32 :
    meets (step (start referenceConfig 0 0xA1000020 [(1, 1)] noFlags []))
      (fun t => t.readReg 1 == 1 && t.pc == 4) = true := by decide

/-- V64. -/
theorem test_jne_taken :
    meets (step (start referenceConfig 0x100 0xAFFFFFE0 [] noFlags []))
      (fun t => t.pc == 0x80 && t.icount == 1) = true := by decide

/-- V65. -/
theorem test_jne_not_taken :
    meets (step (start referenceConfig 0x100 0xAFFFFFE0 [] ⟨false, true, false, false⟩ []))
      (fun t => t.pc == 0x104) = true := by decide

/-- V67. -/
theorem test_jl_taken :
    meets (step (start referenceConfig 0x100 0xB0000040 [] ⟨true, false, false, false⟩ []))
      (fun t => t.pc == 0x200) = true := by decide

/-- V68. -/
theorem test_jl_not_taken :
    meets (step (start referenceConfig 0x100 0xB0000040 [] ⟨false, true, false, false⟩ []))
      (fun t => t.pc == 0x104) = true := by decide

/-- V70: link field 7. -/
theorem test_jsr_pc :
    meets (step (start referenceConfig 0x100 0xBFFFFFE0 [] noFlags []))
      (fun t => t.pc == 0x84) = true := by decide

/-- V73: absolute. -/
theorem test_jmp :
    meets (step (start referenceConfig 0x2000 0xC0000010 [] noFlags []))
      (fun t => t.pc == 0x40 && t.icount == 1) = true := by decide

/-- V74. -/
theorem test_jmp_top :
    meets (step (start referenceConfig 0 0xC7FFFFFF [] noFlags []))
      (fun t => t.pc == 0xFFFFFFFC) = true := by decide

/-- V75. -/
theorem test_jr :
    meets (step (start referenceConfig 0 0xCB000002 [(3, 0x400)] noFlags []))
      (fun t => t.pc == 0x408) = true := by decide

/-- V76. -/
theorem test_jr_pc :
    meets (step (start referenceConfig 0x100 0xCFFFFFFF [] noFlags []))
      (fun t => t.pc == 0xFC) = true := by decide

/-- V78. -/
theorem test_sys :
    meets (step (start referenceConfig 0x100 0xD0000010 [(6, 0x1000)] noFlags []))
      (fun t => t.readReg 6 == 0xFFC && wordAt t 0xFFC == 0x100 && t.pc == 0x40) = true := by decide

/-- V79. -/
theorem test_sys_fault :
    meets (step (start referenceConfig 0x100 0xD0000010 [] noFlags []))
      (fun t => t.fault == some 0xFFFFFFFC && t.pc == 0x100 && t.icount == 0) = true := by decide

/-- V80. -/
theorem test_swapcc :
    meets (step (start referenceConfig 0 0xD9000000 [(1, 0x12345675)] ⟨false, true, false, true⟩ []))
      (fun t => t.readReg 1 == 0x12345679 && t.flags == ⟨true, true, false, false⟩) = true := by decide

/-- V81. -/
theorem test_swapcc_all :
    meets (step (start referenceConfig 0 0xDA000000 [(2, 7)] noFlags []))
      (fun t => t.readReg 2 == 0 && t.flags == ⟨true, true, true, false⟩) = true := by decide

/-- V82. -/
theorem test_halt :
    meets (step (start referenceConfig 0 0xE0000000 [] noFlags []))
      (fun t => t.run == .halted && t.pc == 4 && t.icount == 1) = true := by decide

/-! ## Other parameters, an unassigned opcode and fetch (V25, V28, V43, V83, F1 to F5) -/

/-- V25. -/
theorem test_r7_write_no_advance :
    meets (step (start { referenceConfig with r7WriteAdvance := false } 0 0x5F200000 [(1, 0x80)] noFlags []))
      (fun t => t.pc == 0x80 && t.icount == 1) = true := by decide

/-- V28. -/
theorem test_load_sign :
    meets (step (start { referenceConfig with loadExt := .sign } 0 0x6147FFFF [(2, 0x101)] noFlags [(0x100, 0xF0)]))
      (fun t => t.readReg 1 == 0xFFFFFFF0) = true := by decide

/-- V43. -/
theorem test_push_empty :
    meets (step (start { referenceConfig with stackMode := .emptyDescending } 0 0x73000000 [(3, 0xCAFE), (6, 0x1000)] noFlags []))
      (fun t => t.readReg 6 == 0xFFC && wordAt t 0x1000 == 0xCAFE) = true := by decide

/-- 44_control.md R111 under L24: link R1, displacement -32 words. -/
theorem test_jsr_l24 :
    meets (step (start l24Config 0x100 0xB9FFFFE0 [] noFlags []))
      (fun t => t.readReg 1 == 0x104 && t.pc == 0x80) = true := by decide

/-- V83. -/
theorem test_unassigned :
    meets (step (start referenceConfig 0 0xE8000000 [] noFlags []))
      (fun t => t.run == .undefined && t.icount == 0 && t.pc == 0 && t.fault == none) = true := by decide

/-- F3. -/
theorem test_fetch_unaligned :
    meets (step (start referenceConfig 2 0 [] noFlags []))
      (fun t => t.pc == 6 && t.icount == 1) = true := by decide

/-- F1. -/
theorem test_fetch_fault :
    meets (step (start referenceConfig 0x01000000 0 [] noFlags []))
      (fun t => t.fault == some 0x01000000 && t.icount == 0 && t.run == .running) = true := by decide

/-- F2. -/
theorem test_fetch_fault_crossing :
    meets (step (start referenceConfig 0x00FFFFFD 0 [] noFlags []))
      (fun t => t.fault == some 0x00FFFFFD) = true := by decide

/-- F4. -/
theorem test_fetch_fault_harvard :
    meets (step (start harvardConfig 2 0 [] noFlags []))
      (fun t => t.fault == some 2 && t.icount == 0) = true := by decide

/-- F5. -/
theorem test_fetch_fault_halts :
    meets (step (start { referenceConfig with haltOnFault := true } 0x01000000 0 [] noFlags []))
      (fun t => t.fault == some 0x01000000 && t.run == .halted) = true := by decide

/-! ## Image load (70_reset_and_hazards.md R134) -/

theorem test_load_image :
    (loadImage referenceConfig [1, 2, 3, 4, 5]).toOption = none ∧
    (loadImage { harvardConfig with imemWords := 1 } [1, 2, 3, 4, 5, 6, 7, 8]).toOption = none ∧
    (loadImage harvardConfig [0, 0, 0, 0, 1, 2, 3, 4]).toOption.map (fun s => (s.imem, s.dmem, s.pc)) =
      some ([(1, 0x04030201)], [(4, 1), (5, 2), (6, 3), (7, 4)], 0) := by decide

/-- A table word is fetched and run as the first instruction after reset. -/
theorem test_with_fetch_word :
    decodeTableWord 32 0x91000048 = some (.addiu 1 0x48) ∧
    meets (step (State.reset.withFetchWord 32 0x91000048)) (fun t => t.readReg 1 == 0x48 && t.pc == 4) = true := by decide

/-! ## Witnesses: for each statement with hypotheses, a state that meets them all -/

/-- The hypothesis of every word clause, for the reference parameters and for others. -/
theorem test_witness_word_decodes :
    referenceConfig.wf = true ∧ l24Config.wf = true ∧ harvardConfig.wf = true ∧
    { referenceConfig with memSize := 4 }.wf = true ∧ { referenceConfig with memSize := 2 ^ 31 }.wf = true ∧
    { referenceConfig with memSize := 5 }.wf = false := by decide

theorem test_witness_decode_of_encode :
    referenceConfig.wf = true ∧ Instr.wf referenceConfig (.jsr 7 0x7FFFFE0) = true ∧
    l24Config.wf = true ∧ Instr.wf l24Config (.jsr 7 0xFFFFFF) = true := by decide

/-- Words with unused bits set (U6, U4). -/
theorem test_witness_encode_of_decode :
    decodeWord referenceConfig 0x07FFFFFF = .ok (.and 7 7) ∧
    decodeWord referenceConfig 0x81FFFFFF = .ok (.moviu 1 0xFFFF) := by decide

/-- Both ends of the widths, for ExtensionReadsTheLowBits, ImmEncodeIsIdempotent and RangeWarningTestsBitsAboveTheMask. -/
theorem test_witness_widths : (1 ≤ 1 ∧ 1 ≤ 31) ∧ (1 ≤ 31 ∧ 31 ≤ 31) := by decide

/-- Both ends of a branch's reach, from address 0x100. -/
theorem test_witness_assembled_branch :
    (0xF0000100#32 - 0x100#32) &&& 3#32 = 0#32 ∧ -(2 ^ 28) ≤ (0xF0000100#32 - 0x100#32).toInt ∧
    (0xF0000100#32 - 0x100#32).toInt < 2 ^ 28 ∧ (0x100000FC#32 - 0x100#32) &&& 3#32 = 0#32 ∧
    -(2 ^ 28) ≤ (0x100000FC#32 - 0x100#32).toInt ∧ (0x100000FC#32 - 0x100#32).toInt < 2 ^ 28 := by decide

/-- A running machine whose next fetch is in range, in each mode, and the word it reads. -/
theorem test_witness_step_runs :
    let s := start referenceConfig 0xFFFFFC 0xE0000000 [] noFlags []
    let t := start harvardConfig 60 0xE0000000 [] noFlags []
    (s.run = .running ∧ Fetchable s ∧ FetchReads s 0xE0000000 ∧ decodeWord s.config 0xE0000000 = .ok .halt) ∧
    (t.run = .running ∧ Fetchable t ∧ FetchReads t 0xE0000000 ∧ decodeWord t.config 0xE0000000 = .ok .halt) := by
  refine ⟨⟨by decide, ?_, (fetchReads_iff _ _).2 (by decide), by decide⟩,
    ⟨by decide, ?_, (fetchReads_iff _ _).2 (by decide), by decide⟩⟩ <;>
  exact (State.canFetch_iff _).1 (by decide)

/-- The first PC out of range in unified mode; an unaligned PC and the first beyond `IMEM` in Harvard mode. -/
theorem test_witness_fetch_out_of_range :
    (start referenceConfig 0xFFFFFD 0 [] noFlags []).run = .running ∧
    ¬Fetchable (start referenceConfig 0xFFFFFD 0 [] noFlags []) ∧
    ¬Fetchable (start harvardConfig 2 0 [] noFlags []) ∧ ¬Fetchable (start harvardConfig 64 0 [] noFlags []) := by
  refine ⟨by decide, ?_, ?_, ?_⟩ <;> exact fun h => absurd ((State.canFetch_iff _).2 h) (by decide)

theorem test_witness_unassigned_opcode :
    let s := start referenceConfig 0 0xE8000000 [] noFlags []
    s.run = .running ∧ Fetchable s ∧ FetchReads s 0xE8000000 ∧
      ∀ m, s.config.opcodeMap.code m ≠ opField 0xE8000000 := by
  refine ⟨by decide, (State.canFetch_iff _).1 (by decide), (fetchReads_iff _ _).2 (by decide), fun m => ?_⟩
  cases m <;> decide

theorem test_witness_no_step_unless_running :
    (State.reset.setRun .halted).run = .halted ∧ (State.reset.setRun .undefined).run = .undefined ∧
    State.reset.run = .running := by decide

/-- A faulting LOAD (V32) that leaves the machine running. -/
theorem test_witness_fault_repeats :
    let s := start referenceConfig 0 0x61500000 [(2, 0x00FFFFFE)] noFlags []
    s.config.haltOnFault = false ∧
      ∃ t, step s = .next t ∧ (t.icount == s.icount && t.run == .running) = true :=
  ⟨by decide, exists_of_meets (by decide)⟩

/-- A step that completes, one that faults and one that stops undefined: for StepIsAllOrNothing, and as steps for
ParametersAndProgramArrayNeverChange and HostOnlyStateIsNotRead. -/
theorem test_witness_steps :
    (∃ t, step (start referenceConfig 0 0xE0000000 [] noFlags []) = .next t ∧ (t.icount == 1) = true) ∧
    (∃ t, step (start referenceConfig 0 0x73000000 [] noFlags []) = .next t ∧ (t.fault == some 0xFFFFFFFC) = true) ∧
    ∃ t, step (start referenceConfig 0 0xE8000000 [] noFlags []) = .next t ∧ (t.run == .undefined) = true :=
  ⟨exists_of_meets (by decide), exists_of_meets (by decide), exists_of_meets (by decide)⟩

/-- A state that meets the invariant, with something in memory, and a step from it. -/
theorem test_witness_invariant :
    let s := State.reset.withFetchWord 32 0x6AC80100
    s.Inv ∧ ∃ t, step s = .next t ∧ (t.icount == 1) = true := by
  refine ⟨⟨by decide, by decide, ?_, by decide, ?_, fun _ => rfl⟩, exists_of_meets (by decide)⟩
  · show ∀ cell ∈ [(1, 0x01#8), (2, 0xC8#8), (3, 0x6A#8)], cell.1 < 2 ^ 24
    decide
  · exact fun cell h => by cases h

/-- An image of two words that loads, in each mode. -/
theorem test_witness_load_image :
    referenceConfig.wf = true ∧ (loadImage referenceConfig [0, 0, 0, 0, 1, 2, 3, 4]).isOk = true ∧
    harvardConfig.wf = true ∧ (loadImage harvardConfig [0, 0, 0, 0, 1, 2, 3, 4]).isOk = true ∧
    4 * 1 + 4 ≤ [0#8, 0, 0, 0, 1, 2, 3, 4].length := by decide

theorem test_witness_console_stream :
    let s := start referenceConfig 0 0 [(1, 0x1248)] noFlags []
    ∃ t, exec (.store 1 0 1 0x3FFFF) s = .next t ∧ (t.out != s.out) = true :=
  exists_of_meets (by decide)

/-- A carry that changes (V7), and a comparison that changes EQ. -/
theorem test_witness_flags_change :
    (let s := start referenceConfig 0 0 [(1, 0x7FFFFFFF), (2, 1)] ⟨false, false, false, true⟩ []
     ∃ t, exec (.add 1 2) s = .next t ∧ (t.flags.c != s.flags.c) = true) ∧
    (let s := start referenceConfig 0 0 [] noFlags []
     ∃ t, exec (.cmpiu 1 0) s = .next t ∧ (t.flags.eq != s.flags.eq) = true) :=
  ⟨exists_of_meets (by decide), exists_of_meets (by decide)⟩

theorem test_witness_memory_changes :
    let s := start referenceConfig 0 0 [(3, 0xCAFE), (6, 0x1000)] noFlags []
    ∃ t, exec (.push 3) s = .next t ∧ (t.byte 0xFFC != s.byte 0xFFC) = true :=
  exists_of_meets (by decide)

/-- One of each, for BranchesAndJumpsLeaveTheRest. -/
theorem test_witness_branches_and_jumps :
    (∃ t, exec (.jne 0x7FFFFE0) State.reset = .next t ∧ (t.icount == 1) = true) ∧
    (∃ t, exec (.jl 0x40) State.reset = .next t ∧ (t.icount == 1) = true) ∧
    (∃ t, exec (.jmp 0x10) State.reset = .next t ∧ (t.icount == 1) = true) ∧
    ∃ t, exec (.jr 3 2) State.reset = .next t ∧ (t.icount == 1) = true :=
  ⟨exists_of_meets (by decide), exists_of_meets (by decide), exists_of_meets (by decide), exists_of_meets (by decide)⟩

/-- A register a POP does not list, and the two it does. -/
theorem test_witness_listed_registers :
    (1 : RegIdx) ≠ pcReg ∧ (1 : RegIdx) ∉ listedWrites (.pop 4) ∧ (4 : RegIdx) ∈ listedWrites (.pop 4) ∧
    spReg ∈ listedWrites (.pop 4) ∧
    ∃ t, exec (.pop 4) State.reset = .next t ∧ (t.icount == 1) = true :=
  ⟨by decide, by decide, by decide, by decide, exists_of_meets (by decide)⟩

/-- A JR through an aligned register, and a non-control instruction that does not write the PC. -/
theorem test_witness_pc_aligned :
    let s := start referenceConfig 0x100 0 [(3, 0x400)] noFlags []
    s.pc.toNat % 4 = 0 ∧ (s.readReg 3).toNat % 4 = 0 ∧ isControl (Instr.mov 1 3).mnemonic = false ∧
      pcReg ∉ listedWrites (.mov 1 3) ∧ (∃ t, exec (.jr 3 2) s = .next t ∧ (t.pc == 0x408) = true) ∧
      ∃ t, exec (.mov 1 3) s = .next t ∧ (t.pc == 0x104) = true :=
  ⟨by decide, by decide, by decide, by decide, exists_of_meets (by decide), exists_of_meets (by decide)⟩

/-- The last word store in range in unified mode, and a store in Harvard mode. -/
theorem test_witness_stores_and_fetch :
    let s := start referenceConfig 0 0 [(2, 0xFFFFFC)] noFlags []
    let h := start harvardConfig 0 0 [(2, 0x100)] noFlags []
    s.config.harvard = false ∧ (s.readReg 2 + (0 : BitVec 18).signExtend 32).toNat + 4 ≤ s.config.memSize ∧
      h.config.harvard = true ∧ ∃ t, exec (.store 1 2 4 0) h = .next t ∧ (t.icount == 1) = true :=
  ⟨by decide, by decide, by decide, exists_of_meets (by decide)⟩

/-- Operands DIV has a result for: an ordinary pair, and the two nearest the undefined ones. -/
theorem test_witness_div :
    let s := start referenceConfig 0 0 [(1, 0x80000000), (2, 0xFFFFFFFE), (3, 0x80000001), (4, 0xFFFFFFFF)] noFlags []
    (s.readReg 2 ≠ 0#32 ∧ ¬(s.readReg 1 = 0x80000000#32 ∧ s.readReg 2 = 0xFFFFFFFF#32)) ∧
    (s.readReg 4 ≠ 0#32 ∧ ¬(s.readReg 3 = 0x80000000#32 ∧ s.readReg 4 = 0xFFFFFFFF#32)) := by decide

/-- Each reserved form: both DIV conditions, every reserved size, and the first and last reserved kind. -/
theorem test_witness_reserved_forms :
    let s := start referenceConfig 0 0 [(1, 0x80000000), (2, 0xFFFFFFFF)] noFlags []
    s.readReg 0 = 0#32 ∧ (s.readReg 1 = 0x80000000#32 ∧ s.readReg 2 = 0xFFFFFFFF#32) ∧
    (∀ m ∈ [0#3, 3#3, 5#3, 6#3, 7#3], m ≠ 1#3 ∧ m ≠ 2#3 ∧ m ≠ 4#3) ∧ 4 ≤ (4#3).toNat ∧ 4 ≤ (7#3).toNat := by decide

/-- The last access in range of each size, for LoadReadsMemory and StoreWritesMemory. -/
theorem test_witness_access_in_range :
    let s := start referenceConfig 0 0 [(1, 0xFFFFFF), (2, 0xFFFFFE), (4, 0xFFFFFC)] noFlags []
    (s.readReg 1 + (0 : BitVec 18).signExtend 32).toNat + Size.byte.bytes ≤ s.config.memSize ∧
    (s.readReg 2 + (0 : BitVec 18).signExtend 32).toNat + Size.half.bytes ≤ s.config.memSize ∧
    (s.readReg 4 + (0 : BitVec 18).signExtend 32).toNat + Size.word.bytes ≤ s.config.memSize ∧
    ¬(Size.byte = .byte ∧ s.readReg 1 + (0 : BitVec 18).signExtend 32 = s.config.consoleAddr) := by decide

/-- The first access out of range of each size; the console store, which is no access; a word at `CONSOLE_ADDR`. -/
theorem test_witness_access_out_of_range :
    let s := start referenceConfig 0 0 [(1, 0x1000000), (2, 0xFFFFFF), (4, 0xFFFFFD)] noFlags []
    s.config.memSize < (s.readReg 1 + (0 : BitVec 18).signExtend 32).toNat + Size.byte.bytes ∧
    s.config.memSize < (s.readReg 2 + (0 : BitVec 18).signExtend 32).toNat + Size.half.bytes ∧
    s.config.memSize < (s.readReg 4 + (0 : BitVec 18).signExtend 32).toNat + Size.word.bytes ∧
    ¬(Size.byte = .byte ∧ s.readReg 1 + (0 : BitVec 18).signExtend 32 = s.config.consoleAddr) ∧
    s.readReg 0 + (-1 : BitVec 18).signExtend 32 = s.config.consoleAddr ∧
    s.config.memSize < (s.readReg 0 + (-1 : BitVec 18).signExtend 32).toNat + Size.word.bytes := by decide

/-- A push and a pop in range and out of range: both sides of the statements about PUSH, POP and SYS. -/
theorem test_witness_stack :
    (pushTarget .fullDescending 4#32).toNat + 4 ≤ 2 ^ 24 ∧ ¬(pushTarget .fullDescending 0#32).toNat + 4 ≤ 2 ^ 24 ∧
    (popTarget .fullDescending 0xFFFFFC#32).toNat + 4 ≤ 2 ^ 24 ∧
    ¬(popTarget .emptyDescending 0xFFFFFC#32).toNat + 4 ≤ 2 ^ 24 := by decide

/-- The first and the last kind SHIFT defines; a register that is not the PC, for TwoSwapccsRestore. -/
theorem test_witness_shift_and_swapcc :
    (0#3).toNat < 4 ∧ (3#3).toNat < 4 ∧ (0 : RegIdx) ≠ pcReg ∧ (6 : RegIdx) ≠ pcReg := by decide

end Sys2Proof.Tests
end

section
/-! PROOFS. The statements of 00_scope.md: what the two extensions are and what they read. -/

namespace Sys2Proof

/-- The unsigned value of `zext_N` is that of its argument modulo 2^N (R9): it is the zero extension of the low N bits,
and widening N bits to 32 loses nothing. -/
theorem toNat_zext {n : Nat} (h : n ≤ 31) (v : Word) : (zext n v).toNat = v.toNat % 2 ^ n := by
  rw [zext_eq h, BitVec.toNat_setWidth_of_le (by omega), BitVec.toNat_setWidth]

/-- The signed value of `sext_N` is the two's-complement value of the low N bits (R9): it is their sign extension, which
keeps the signed value. -/
theorem toInt_sext {n : Nat} (h1 : 1 ≤ n) (h : n ≤ 31) (v : Word) : (sext n v).toInt = (v.setWidth n).toInt := by
  rw [sext_eq h1 h, BitVec.toInt_signExtend_of_le (by omega)]

/-- Settles O6: the bit forms are the definitions, written as R9 writes them, and the values follow from the
extensions of the low N bits. -/
theorem extensionReadsTheLowBits : Obligations.ExtensionReadsTheLowBits := by
  unfold Obligations.ExtensionReadsTheLowBits
  intro n v h1 h
  exact ⟨⟨rfl, toNat_zext h v⟩, rfl, toInt_sext h1 h v⟩

end Sys2Proof
end

section
/-! PROOFS. The statements of 30_encoding.md: ImmEncode on a value that already fits its field. -/

namespace Sys2Proof

/-- `zext_N` changes nothing in a word that fits N bits. -/
theorem zext_eq_self {n : Nat} (h : n ≤ 31) {r : Word} (hr : r.toNat < 2 ^ n) : zext n r = r :=
  BitVec.eq_of_toNat_eq (by rw [toNat_zext h, Nat.mod_eq_of_lt hr])

/-- A word that fits N bits has no bit above the mask. -/
theorem and_not_mask_eq_zero {n : Nat} (h : n ≤ 31) {r : Word} (hr : r.toNat < 2 ^ n) : r &&& ~~~(mask n) = 0#32 := by
  rw [← zext_eq_self h hr, zext, BitVec.and_assoc, BitVec.and_not_self]
  exact BitVec.and_zero

/-- A word that fits at most 31 bits has bit 31 clear. -/
theorem msb_eq_false_of_lt {n : Nat} (h : n ≤ 31) {r : Word} (hr : r.toNat < 2 ^ n) : r.msb = false :=
  BitVec.msb_eq_false_iff_two_mul_lt.mpr (by
    have : 2 ^ n ≤ 2 ^ 31 := Nat.pow_le_pow_right (by decide) h
    omega)

/-- Step 1 of R57 keeps the value of an operand that is not relative. -/
@[simp] theorem immRelative_false (v address : Word) : immRelative v false address = v := rfl

/-- Step 5 of R57 keeps the value when the shift is 0, whether arithmetic or logical. -/
@[simp] theorem immShifted_zero (v : Word) (signed : Bool) : immShifted v signed 0 = v := by
  cases signed
  · exact BitVec.ushiftRight_zero v
  · exact BitVec.sshiftRight_zero

/-- The result of `ImmEncode` fits its field (R57, step 7): it is a zero extension from the field's width. -/
theorem immEncode_value_lt {size : Nat} (h : size ≤ 31) (v : Word) (signed : Bool) (shift : Nat) (relative : Bool)
    (address : Word) : (immEncode v size signed shift relative address).value.toNat < 2 ^ size := by
  show (zext size (immShifted (immRelative v relative address) signed shift)).toNat < 2 ^ size
  rw [toNat_zext h]
  exact Nat.mod_lt _ (Nat.two_pow_pos size)

/-- A value that fits its field encodes as itself with no warning, unshifted and not relative: bit 31 is clear, so
either sign expects zeros above the mask, and zeros stand there (the reason R60 gives). -/
theorem immEncode_of_lt {size : Nat} (h : size ≤ 31) {r : Word} (hr : r.toNat < 2 ^ size) (signed : Bool)
    (address : Word) : immEncode r size signed 0 false address = ⟨r, false, false⟩ := by
  have value : r &&& mask size = r := zext_eq_self h hr
  have above : r &&& ~~~(mask size) = 0#32 := and_not_mask_eq_zero h hr
  have sign : r.msb = false := msb_eq_false_of_lt h hr
  have aligned : r &&& mask 0 = 0#32 := BitVec.and_zero
  simp [immEncode, value, above, sign, aligned]

/-- Settles O7: the first result fits its field, and what fits its field encodes as itself. -/
theorem immEncodeIsIdempotent : Obligations.ImmEncodeIsIdempotent := by
  unfold Obligations.ImmEncodeIsIdempotent
  intro v size signed shift relative address address' _ h
  have fits := immEncode_value_lt h v signed shift relative address
  exact ⟨fits, immEncode_of_lt h fits signed address'⟩

end Sys2Proof
end

section
/-! PROOFS. The statements of 44_control.md: JNE, JL, JMP and JR, each by the word of its layout and the end of a step whose
handler wrote the PC alone. -/

namespace Sys2Proof.Machine

/-! ### The words of layouts L27 and L24 -/

/-- A field at offset 0 reaches no bit past its width. -/
theorem getLsbD_fieldAt_zero_of_le {n j : Nat} (imm : BitVec n) (hj : n ≤ j) : (fieldAt imm 0).getLsbD j = false := by
  rw [getLsbD_fieldAt, Nat.sub_zero, BitVec.getLsbD_of_ge imm j hj, Bool.and_false]

/-- The immediate of a word is the one put there, when the layout has room for it. -/
theorem setWidth_fieldAt_zero {n : Nat} (hn : n ≤ 31) (imm : BitVec n) :
    (fieldAt imm 0 &&& mask n).setWidth n = imm := by
  have value : fieldAt imm 0 &&& mask n = imm.setWidth 32 := by
    rw [fieldAt, BitVec.shiftLeft_zero]
    exact zext_setWidth hn imm
  rw [value, BitVec.setWidth_setWidth_of_le imm (show n ≤ 32 by omega), BitVec.setWidth_eq]

/-- A mnemonic of layout L27 whose instruction takes the immediate alone decodes to it (30_encoding.md R49, R53). -/
theorem wordDecodes_l27 {c : Config} {m : Mnemonic} {i : BitVec 27 → Instr} (hl : layoutOf c m = .l27)
    (hi : ∀ u, instrOf m u = i (u.imm.setWidth 27)) (imm : BitVec 27) : WordDecodes c m (fieldAt imm 0) (i imm) := by
  intro hc
  rw [decodeWord_opcodeWord hc m _ fun j hj => getLsbD_fieldAt_zero_of_le imm hj, hi, hl]
  exact congrArg (fun v => Except.ok (i v)) (setWidth_fieldAt_zero (by decide) imm)

/-- The bits below the opcode of an L24 word: none at 27 or above. -/
theorem getLsbD_l24_of_le (d : RegIdx) (imm : BitVec 24) {j : Nat} (hj : 27 ≤ j) :
    (fieldAt d 24 ||| fieldAt imm 0).getLsbD j = false := by
  rw [BitVec.getLsbD_or, getLsbD_fieldAt_zero_of_le imm (by omega), getLsbD_fieldAt,
    BitVec.getLsbD_of_ge d (j - 24) (by omega), Bool.and_false, Bool.or_false]

/-- The register field of an L24 word. -/
theorem fieldA_l24 (d : RegIdx) (imm : BitVec 24) : fieldA (fieldAt d 24 ||| fieldAt imm 0) = d := by
  ext j hj
  have high : (fieldAt imm 0).getLsbD (24 + j) = false := getLsbD_fieldAt_zero_of_le imm (by omega)
  rw [fieldA, BitVec.getElem_extractLsb', BitVec.getLsbD_or, high, getLsbD_fieldAt]
  simp [show 24 + j < 32 by omega, BitVec.getLsbD_eq_getElem hj]

/-- The immediate bits of an L24 word do not see the register field. -/
theorem imm_l24 (d : RegIdx) (imm : BitVec 24) :
    (fieldAt d 24 ||| fieldAt imm 0) &&& mask 24 = fieldAt imm 0 &&& mask 24 := by
  ext j hj
  rw [← BitVec.getLsbD_eq_getElem, ← BitVec.getLsbD_eq_getElem]
  simp only [BitVec.getLsbD_and, BitVec.getLsbD_or, getLsbD_fieldAt, getLsbD_mask (show 24 ≤ 31 by decide)]
  by_cases h : j < 24 <;> simp [h]

/-- JR's word decodes to JR. -/
theorem wordDecodes_jr (c : Config) (d : RegIdx) (imm : BitVec 24) :
    WordDecodes c .jr (fieldAt d 24 ||| fieldAt imm 0) (.jr d imm) := by
  intro hc
  rw [decodeWord_opcodeWord hc .jr _ fun j hj => getLsbD_l24_of_le d imm hj]
  have register : fieldA (fieldAt d 24 ||| fieldAt imm 0) = d := fieldA_l24 d imm
  have immediate : ((fieldAt d 24 ||| fieldAt imm 0) &&& mask 24).setWidth 24 = imm := by
    rw [imm_l24, setWidth_fieldAt_zero (by decide)]
  exact congrArg₂ (fun r v => Except.ok (Instr.jr r v)) register immediate

/-! ### What the assembler packs -/

/-- The value of `ImmEncode` is masked to its field already (R57, step 7). -/
theorem immEncode_value_and_mask (v : Word) (size : Nat) (signed : Bool) (shift : Nat) (relative : Bool)
    (address : Word) : (immEncode v size signed shift relative address).value &&& mask size =
      (immEncode v size signed shift relative address).value := by
  simp only [immEncode, BitVec.and_assoc, BitVec.and_self]

/-- A packed word of layout L27 holds the immediate alone below its opcode (R54). -/
theorem pack_l27 {c : Config} {m : Mnemonic} (hl : layoutOf c m = .l27) (fa fb fc imm : Word) :
    pack c m fa fb fc imm = opcodeWord (c.opcodeMap.code m) (imm &&& mask 27) := by
  simp [pack, hl, opcodeWord, suppliedField, Layout.hasFieldA, Layout.hasFieldB, Layout.hasFieldC, Layout.width]

/-- A packed word of layout L24 holds a register field and the immediate below its opcode (R54). -/
theorem pack_l24 {c : Config} {m : Mnemonic} (hl : layoutOf c m = .l24) (d : RegIdx) (fb fc imm : Word) :
    pack c m (d.setWidth 32) fb fc imm =
      opcodeWord (c.opcodeMap.code m) (fieldAt d 24 ||| (imm &&& mask 24)) := by
  have field : d.setWidth 32 &&& mask 3 = d.setWidth 32 := zext_setWidth (by decide) d
  simp [pack, hl, opcodeWord, suppliedField, fieldAt, field, Layout.hasFieldA, Layout.hasFieldB, Layout.hasFieldC,
    Layout.width, BitVec.or_assoc]

/-- The assembled word of an L27 mnemonic whose operand is a signed word displacement of 27 bits (R61). -/
theorem assemble_l27 {c : Config} {m : Mnemonic} {relative : Bool} (hl : layoutOf c m = .l27)
    (hk : descriptorOf c m = some ⟨2, true, 27, relative⟩) (a : Word) (o : AsmOperands) :
    assemble c a m o = opcodeWord (c.opcodeMap.code m) (immEncode o.operand 27 true 2 relative a).value := by
  have immediate : assembleImmediate c m o.operand a = immEncode o.operand 27 true 2 relative a := by
    simp only [assembleImmediate, hk]
  rw [assemble, pack_l27 hl, immediate, immEncode_value_and_mask]

/-- JR's assembled word (R61). -/
theorem assemble_jr (c : Config) (a : Word) (o : AsmOperands) :
    assemble c a .jr o = opcodeWord (c.opcodeMap.code .jr)
      (fieldAt o.rd 24 ||| (immEncode o.operand 24 true 2 false a).value) := by
  rw [← immEncode_value_and_mask]
  exact pack_l24 rfl o.rd _ _ _

/-! ### The end of a step whose handler wrote the PC -/

/-- A control handler that writes the PC and nothing else ends in a state that differs in the PC, apart from the count
(40_engine.md R71, R74). -/
theorem endStep_writePc (st : State) {m : Mnemonic} (hm : isControl m = true) (w : List RegIdx) (p : Word) :
    ∃ t, endStep st m w (.done (st.writeReg pcReg p)) = .next t ∧ t.flags = st.flags ∧ t.run = st.run ∧
      KeepsMemory st t ∧ WritesOnlyPc st t p :=
  ⟨_, rfl, by simp, by simp, keepsMemory_of_done rfl rfl, writesOnlyPc_of_control hm w p⟩

/-! ### The statements -/

/-- Settles O48: JNE's word is an L27 word, and the shared branch is taken when `EQ` is 0. -/
theorem jneBranchesWhenNotEqual : Obligations.JneBranchesWhenNotEqual := by
  unfold Obligations.JneBranchesWhenNotEqual
  intro imm o st
  refine ⟨wordDecodes_l27 rfl (fun _ => rfl) imm, assemble_l27 rfl rfl st.pc o, ?_⟩
  have handler : handleJne imm st = .done (st.writeReg pcReg
      (if st.flags.eq = false then st.pc + (imm.signExtend 32 <<< 2) else st.pc + 4#32)) := by
    simp only [handleJne, branchHandler, displacement27_eq, Bool.not_eq_true']
  rw [exec_jne, handler]
  exact endStep_writePc st rfl _ _

/-- Settles O49: JL's word is an L27 word, and the shared branch is taken when `LT` is 1. -/
theorem jlBranchesWhenLess : Obligations.JlBranchesWhenLess := by
  unfold Obligations.JlBranchesWhenLess
  intro imm o st
  refine ⟨wordDecodes_l27 rfl (fun _ => rfl) imm, assemble_l27 rfl rfl st.pc o, ?_⟩
  rw [exec_jl, handleJl, branchHandler, displacement27_eq]
  exact endStep_writePc st rfl _ _

/-- Settles O51: JMP's word is an L27 word, and its handler writes the displacement itself to the PC. -/
theorem jmpIsAbsolute : Obligations.JmpIsAbsolute := by
  unfold Obligations.JmpIsAbsolute
  intro imm o st
  refine ⟨wordDecodes_l27 rfl (fun _ => rfl) imm, assemble_l27 rfl rfl st.pc o, ?_⟩
  rw [exec_jmp, handleJmp, displacement27_eq]
  exact endStep_writePc st rfl _ _

/-- Settles O52: JR's word is an L24 word, and its handler writes the register plus the displacement to the PC. -/
theorem jrJumpsThroughARegister : Obligations.JrJumpsThroughARegister := by
  unfold Obligations.JrJumpsThroughARegister
  intro d imm o st
  refine ⟨wordDecodes_jr st.config d imm, assemble_jr st.config st.pc o, ?_⟩
  rw [exec_jr, handleJr, displacement24_eq]
  exact endStep_writePc st rfl _ _

end Sys2Proof.Machine
end

section
/-! PROOFS. The fields of a word in place (30_encoding.md R47, R49): each field of a word is the one put there, and a
packed word is its fields in their places. -/

namespace Sys2Proof.Machine

/-! ### A field in its place -/

/-- The bits of a field's place hold the field. -/
@[simp] theorem extract_fieldAt_self {n : Nat} (v : BitVec n) {k : Nat} (h : k + n ≤ 32) :
    (fieldAt v k).extractLsb' k n = v := by
  ext j hj
  rw [BitVec.getElem_extractLsb', getLsbD_fieldAt]
  simp [show k + j < 32 by omega, hj]

/-- Bits outside a field's place are clear. -/
@[simp] theorem extract_fieldAt_of_disjoint {n : Nat} (v : BitVec n) {k j len : Nat} (h : k + n ≤ j ∨ j + len ≤ k) :
    (fieldAt v k).extractLsb' j len = 0#len := by
  ext i hi
  rw [BitVec.getElem_extractLsb', getLsbD_fieldAt, BitVec.getElem_zero]
  rcases h with h | h
  · rw [BitVec.getLsbD_of_ge v _ (by omega), Bool.and_false]
  · simp [show j + i < k by omega]

/-- A field at offset 0 is the value itself, so a place inside it holds those bits of the value. -/
@[simp] theorem extract_fieldAt_zero {n : Nat} (v : BitVec n) {j len : Nat} (h : j + len ≤ 32) :
    (fieldAt v 0).extractLsb' j len = v.extractLsb' j len := by
  rw [fieldAt, BitVec.shiftLeft_zero, BitVec.extractLsb'_setWidth_of_le h]

/-- No bit of a field lies past its place. -/
theorem getLsbD_fieldAt_of_le {n : Nat} (v : BitVec n) {k j : Nat} (h : k + n ≤ j) :
    (fieldAt v k).getLsbD j = false := by
  rw [getLsbD_fieldAt, BitVec.getLsbD_of_ge v _ (by omega), Bool.and_false]

/-- A mask of N bits sees nothing of a field put at bit N or above. -/
@[simp] theorem fieldAt_and_mask_of_le {n : Nat} (v : BitVec n) {k w : Nat} (h : w ≤ k) (hk : w ≤ 31) :
    fieldAt v k &&& mask w = 0#32 := by
  ext j hj
  rw [← BitVec.getLsbD_eq_getElem, BitVec.getLsbD_and, getLsbD_fieldAt, getLsbD_mask hk, BitVec.getElem_zero]
  by_cases hw : j < w
  · simp [show j < k by omega]
  · simp [hw]

/-- A masked immediate holds nothing above the mask. -/
@[simp] theorem extract_and_mask_of_le (imm : Word) {w j len : Nat} (hw : w ≤ 31) (h : w ≤ j) :
    (imm &&& mask w).extractLsb' j len = 0#len := by
  ext i hi
  rw [BitVec.getElem_extractLsb', BitVec.getLsbD_and, getLsbD_mask hw, BitVec.getElem_zero]
  simp [show ¬j + i < w by omega]

/-! ### A packed word as its fields -/

/-- A supplied field in its place (R54). -/
theorem suppliedField_shiftLeft (present : Bool) (v : Word) (k : Nat) :
    suppliedField present v <<< k = if present then fieldAt (v.setWidth 3) k else 0#32 := by
  cases present
  · exact BitVec.zero_shiftLeft k
  · have cut : v &&& mask 3 = (v.setWidth 3).setWidth 32 := zext_eq (by decide) v
    simp only [suppliedField, if_true, cut, fieldAt]

/-- What `Pack` puts below the opcode (R54). -/
def packedFields (layout : Layout) (fa fb fc imm : Word) : Word :=
  (if layout.hasFieldA then fieldAt (fa.setWidth 3) 24 else 0#32) |||
    (if layout.hasFieldB then fieldAt (fb.setWidth 3) 21 else 0#32) |||
    (if layout.hasFieldC then fieldAt (fc.setWidth 3) 18 else 0#32) ||| (imm &&& mask layout.width)

theorem pack_eq_opcodeWord (c : Config) (m : Mnemonic) (fa fb fc imm : Word) :
    pack c m fa fb fc imm = opcodeWord (c.opcodeMap.code m) (packedFields (layoutOf c m) fa fb fc imm) := by
  simp only [pack, suppliedField_shiftLeft, opcodeWord, packedFields, BitVec.or_assoc]

variable (layout : Layout) (fa fb fc imm : Word)

/-- The packed fields leave the opcode's bits clear. -/
theorem getLsbD_packedFields_of_le {j : Nat} (hj : 27 ≤ j) : (packedFields layout fa fb fc imm).getLsbD j = false := by
  have above : (imm &&& mask layout.width).getLsbD j = false := by
    have := width_le layout
    rw [BitVec.getLsbD_and, getLsbD_mask (by omega)]
    simp [show ¬j < layout.width by omega]
  simp only [packedFields, BitVec.getLsbD_or, above, Bool.or_false]
  split_ifs <;> simp (disch := omega) [getLsbD_fieldAt_of_le]

/-! One equation per layout (R49). -/

@[simp] theorem packedFields_l27 : packedFields .l27 fa fb fc imm = imm &&& mask 27 := by
  simp [packedFields, Layout.hasFieldA, Layout.hasFieldB, Layout.hasFieldC, Layout.width]

@[simp] theorem packedFields_l24 :
    packedFields .l24 fa fb fc imm = fieldAt (fa.setWidth 3) 24 ||| (imm &&& mask 24) := by
  simp [packedFields, Layout.hasFieldA, Layout.hasFieldB, Layout.hasFieldC, Layout.width]

@[simp] theorem packedFields_l21 : packedFields .l21 fa fb fc imm =
    fieldAt (fa.setWidth 3) 24 ||| fieldAt (fb.setWidth 3) 21 ||| (imm &&& mask 21) := by
  simp [packedFields, Layout.hasFieldA, Layout.hasFieldB, Layout.hasFieldC, Layout.width]

@[simp] theorem packedFields_l18 : packedFields .l18 fa fb fc imm =
    fieldAt (fa.setWidth 3) 24 ||| fieldAt (fb.setWidth 3) 21 ||| fieldAt (fc.setWidth 3) 18 |||
      (imm &&& mask 18) := rfl

@[simp] theorem packedFields_l16 : packedFields .l16 fa fb fc imm =
    fieldAt (fa.setWidth 3) 24 ||| fieldAt (fb.setWidth 3) 21 ||| fieldAt (fc.setWidth 3) 18 |||
      (imm &&& mask 16) := rfl

@[simp] theorem packedFields_l6 : packedFields .l6 fa fb fc imm =
    fieldAt (fa.setWidth 3) 24 ||| fieldAt (fb.setWidth 3) 21 ||| fieldAt (fc.setWidth 3) 18 |||
      (imm &&& mask 6) := rfl

/-- The field at offset 24: the field supplied, where the layout has one, else bits of the immediate (R55, C2). -/
theorem fieldA_packedFields : fieldA (packedFields layout fa fb fc imm) =
    if layout.hasFieldA then fa.setWidth 3 else (imm &&& mask layout.width).extractLsb' 24 3 := by
  cases layout <;> simp [fieldA, BitVec.extractLsb'_or, Layout.hasFieldA, Layout.width]

/-- The field at offset 21. -/
theorem fieldB_packedFields : fieldB (packedFields layout fa fb fc imm) =
    if layout.hasFieldB then fb.setWidth 3 else (imm &&& mask layout.width).extractLsb' 21 3 := by
  cases layout <;> simp [fieldB, BitVec.extractLsb'_or, Layout.hasFieldB, Layout.width]

/-- The field at offset 18. -/
theorem fieldC_packedFields : fieldC (packedFields layout fa fb fc imm) =
    if layout.hasFieldC then fc.setWidth 3 else (imm &&& mask layout.width).extractLsb' 18 3 := by
  cases layout <;> simp [fieldC, BitVec.extractLsb'_or, Layout.hasFieldC, Layout.width]

/-- The immediate: the one supplied, cut to the layout's width. -/
theorem packedFields_and_mask :
    packedFields layout fa fb fc imm &&& mask layout.width = imm &&& mask layout.width := by
  have cut (n : Nat) : imm &&& mask n &&& mask n = imm &&& mask n := by rw [BitVec.and_assoc, BitVec.and_self]
  cases layout <;> simp [BitVec.and_or_distrib_right, cut, Layout.width]

end Sys2Proof.Machine
end

section
/-! PROOFS. What a word decodes to, by the layout of its mnemonic: one lemma per form of operands (30_encoding.md R49,
R50). -/

namespace Sys2Proof.Machine

/-- Cutting to the layout's width twice is cutting once. -/
theorem setWidth_and_mask (rest : Word) {n : Nat} (hn : n ≤ 31) : (rest &&& mask n).setWidth n = rest.setWidth n := by
  have cut : rest &&& mask n = (rest.setWidth n).setWidth 32 := zext_eq hn rest
  rw [cut, BitVec.setWidth_setWidth_of_le _ (show n ≤ 32 by omega), BitVec.setWidth_eq]

variable {c : Config} {m : Mnemonic} {rest : Word} (above : ∀ j, 27 ≤ j → rest.getLsbD j = false)
include above

/-- Two registers, layout L6. -/
theorem wordDecodes_two_registers {i : RegIdx → RegIdx → Instr} (hl : layoutOf c m = .l6)
    (hi : ∀ u, instrOf m u = i (readRole u.d) (readRole u.s)) :
    WordDecodes c m rest (i (fieldA rest) (fieldB rest)) := by
  intro hc
  rw [decodeWord_opcodeWord hc m rest above, hi, hl]
  rfl

/-- One register, layout L6. -/
theorem wordDecodes_one_register {i : RegIdx → Instr} (hl : layoutOf c m = .l6)
    (hi : ∀ u, instrOf m u = i (readRole u.d)) : WordDecodes c m rest (i (fieldA rest)) := by
  intro hc
  rw [decodeWord_opcodeWord hc m rest above, hi, hl]
  rfl

/-- Two registers, a modifier and an offset, layout L18. -/
theorem wordDecodes_access {i : RegIdx → RegIdx → BitVec 3 → BitVec 18 → Instr} (hl : layoutOf c m = .l18)
    (hi : ∀ u, instrOf m u = i (readRole u.d) (readRole u.s) (readRole u.m) (u.imm.setWidth 18)) :
    WordDecodes c m rest (i (fieldA rest) (fieldB rest) (fieldC rest) (rest.setWidth 18)) := by
  intro hc
  rw [decodeWord_opcodeWord hc m rest above, hi, hl, ← setWidth_and_mask rest (show 18 ≤ 31 by decide)]
  rfl

/-- MOVIU's register and immediate, layout L16. -/
theorem wordDecodes_moviu : WordDecodes c .moviu rest (.moviu (fieldA rest) (rest.setWidth 16)) := by
  intro hc
  rw [decodeWord_opcodeWord hc _ rest above, ← setWidth_and_mask rest (show 16 ≤ 31 by decide)]
  rfl

/-- A register and an immediate, layout L24. -/
theorem wordDecodes_register_immediate {i : RegIdx → BitVec 24 → Instr} (hl : layoutOf c m = .l24)
    (hi : ∀ u, instrOf m u = i (readRole u.d) (u.imm.setWidth 24)) :
    WordDecodes c m rest (i (fieldA rest) (rest.setWidth 24)) := by
  intro hc
  rw [decodeWord_opcodeWord hc m rest above, hi, hl, ← setWidth_and_mask rest (show 24 ≤ 31 by decide)]
  rfl

/-- SHIFT's register, kind and immediate, layout L21 (D4). -/
theorem wordDecodes_shift :
    WordDecodes c .shift rest (.shift (fieldA rest) (fieldB rest) (rest.setWidth 21)) := by
  intro hc
  rw [decodeWord_opcodeWord hc _ rest above, ← setWidth_and_mask rest (show 21 ≤ 31 by decide)]
  rfl

/-- An immediate alone, layout L27. -/
theorem wordDecodes_immediate {i : BitVec 27 → Instr} (hl : layoutOf c m = .l27)
    (hi : ∀ u, instrOf m u = i (u.imm.setWidth 27)) : WordDecodes c m rest (i (rest.setWidth 27)) := by
  intro hc
  rw [decodeWord_opcodeWord hc m rest above, hi, hl, ← setWidth_and_mask rest (show 27 ≤ 31 by decide)]
  rfl

/-- JSR under L27: the link register is part of the immediate (R52). -/
theorem wordDecodes_jsr_l27 (hl : c.jsrLayout = .l27) :
    WordDecodes c .jsr rest (.jsr (fieldA rest) (rest.setWidth 27)) := by
  intro hc
  have layout : layoutOf c .jsr = .l27 := by rw [layoutOf, hl]
  rw [decodeWord_opcodeWord hc _ rest above, layout, ← setWidth_and_mask rest (show 27 ≤ 31 by decide)]
  rfl

/-- JSR under L24: the immediate has 24 bits (R52). -/
theorem wordDecodes_jsr_l24 (hl : c.jsrLayout = .l24) :
    WordDecodes c .jsr rest (.jsr (fieldA rest) ((rest.setWidth 24).setWidth 27)) := by
  intro hc
  have layout : layoutOf c .jsr = .l24 := by rw [layoutOf, hl]
  have immediate : (rest &&& mask 24).setWidth 27 = (rest.setWidth 24).setWidth 27 := by
    have cut : rest &&& mask 24 = (rest.setWidth 24).setWidth 32 := zext_eq (by decide) rest
    rw [cut, BitVec.setWidth_setWidth_of_le _ (by decide)]
  rw [decodeWord_opcodeWord hc _ rest above, layout, ← immediate]
  rfl

/-- HALT reads no operand. -/
theorem wordDecodes_halt : WordDecodes c .halt rest .halt := by
  intro hc
  rw [decodeWord_opcodeWord hc _ rest above]
  rfl

end Sys2Proof.Machine
end

section
/-! PROOFS. The statements of 30_encoding.md section 3: Unpack of Pack, and decoding what was encoded. -/

namespace Sys2Proof.Machine

/-- A word packed for a mnemonic is unpacked as that mnemonic's, field by field. -/
theorem unpack_pack {c : Config} (hc : c.wf = true) (m : Mnemonic) (fa fb fc imm : Word) :
    let fields := packedFields (layoutOf c m) fa fb fc imm
    unpack c (pack c m fa fb fc imm) =
      { op := c.opcodeMap.code m, mnemonic := some m, layout := some (layoutOf c m), fa := fieldA fields,
        fb := fieldB fields, fc := fieldC fields, imm := fields &&& mask (layoutOf c m).width,
        d := roleD (layoutOf c m) m (fieldA fields), s := roleS (layoutOf c m) (fieldB fields),
        m := roleM (layoutOf c m) (fieldB fields) (fieldC fields) } := by
  have found := mnemonicOf_code (Config.injective_of_wf hc) m
  simp only [unpack, opField_pack, found]
  simp only [pack_eq_opcodeWord, fieldA_opcodeWord, fieldB_opcodeWord, fieldC_opcodeWord,
    imm_opcodeWord _ _ (width_le _)]

/-- Settles O5: the fields of the packed word are in their places, and the immediate fills those the layout lacks. -/
theorem unpackOfPack : Obligations.UnpackOfPack := by
  unfold Obligations.UnpackOfPack
  intro c m fa fb fc imm hc
  rw [unpack_pack hc]
  exact ⟨rfl, rfl, rfl, packedFields_and_mask .., fieldA_packedFields .., fieldB_packedFields ..,
    fieldC_packedFields ..⟩

/-! ### Decoding what was encoded, by the form of the operands -/

/-- A field cut to its three bits. -/
theorem setWidth_setWidth_field (v : BitVec 3) : (v.setWidth 32).setWidth 3 = v := by
  rw [BitVec.setWidth_setWidth_of_le v (by decide), BitVec.setWidth_eq]

/-- An immediate of 27 bits whose top three are clear is one of 24 bits. -/
theorem setWidth_setWidth_of_extract_eq_zero {imm : BitVec 27} (h : imm.extractLsb' 24 3 = 0#3) :
    (imm.setWidth 24).setWidth 27 = imm := by
  ext j hj
  rw [BitVec.getElem_setWidth, BitVec.getLsbD_setWidth, ← BitVec.getLsbD_eq_getElem]
  by_cases low : j < 24
  · simp [low]
  · have top : (imm.extractLsb' 24 3).getLsbD (j - 24) = false := by rw [h, BitVec.getLsbD_zero]
    rw [BitVec.getLsbD_extractLsb', show 24 + (j - 24) = j by omega] at top
    simpa [low, show j - 24 < 3 by omega] using top.symm

section
variable {layout : Layout}

/-- The register packed at offset 24 is the one unpacked there. -/
theorem fieldA_packed (h : layout.hasFieldA = true) (d : BitVec 3) (fb fc imm : Word) :
    fieldA (packedFields layout (d.setWidth 32) fb fc imm) = d := by
  rw [fieldA_packedFields, if_pos h, setWidth_setWidth_field]

theorem fieldB_packed (h : layout.hasFieldB = true) (fa : Word) (s : BitVec 3) (fc imm : Word) :
    fieldB (packedFields layout fa (s.setWidth 32) fc imm) = s := by
  rw [fieldB_packedFields, if_pos h, setWidth_setWidth_field]

theorem fieldC_packed (h : layout.hasFieldC = true) (fa fb : Word) (x : BitVec 3) (imm : Word) :
    fieldC (packedFields layout fa fb (x.setWidth 32) imm) = x := by
  rw [fieldC_packedFields, if_pos h, setWidth_setWidth_field]

/-- The immediate of a packed word is the one packed, cut to the layout's width. -/
theorem setWidth_packedFields (layout : Layout) (fa fb fc imm : Word) :
    (packedFields layout fa fb fc imm).setWidth layout.width = imm.setWidth layout.width := by
  have width : layout.width ≤ 31 := le_trans (width_le layout) (by decide)
  rw [← setWidth_and_mask _ width, packedFields_and_mask, setWidth_and_mask _ width]

/-- The immediate packed is the one unpacked, when it has the layout's width. -/
theorem setWidth_packed (layout : Layout) (fa fb fc : Word) {n : Nat} (h : layout.width = n) (imm : BitVec n) :
    (packedFields layout fa fb fc (imm.setWidth 32)).setWidth n = imm := by
  subst h
  have width := width_le layout
  rw [setWidth_packedFields, BitVec.setWidth_setWidth_of_le imm (show layout.width ≤ 32 by omega), BitVec.setWidth_eq]

end

section
variable {c : Config} (hc : c.wf = true) {m : Mnemonic} {layout : Layout} (hl : layoutOf c m = layout)
include hc hl

/-- A packed word decodes to what its fields decode to. -/
theorem decodeWord_pack {fa fb fc imm : Word} {i j : Instr} (h : WordDecodes c m (packedFields layout fa fb fc imm) i)
    (e : i = j) : decodeWord c (pack c m fa fb fc imm) = .ok j := by
  rw [pack_eq_opcodeWord, hl, ← e]
  exact h hc

end

section
variable {c : Config} (hc : c.wf = true) {m : Mnemonic}
include hc

theorem decodeWord_pack_two_registers {i : RegIdx → RegIdx → Instr} (hl : layoutOf c m = .l6)
    (hi : ∀ u, instrOf m u = i (readRole u.d) (readRole u.s)) (d s : RegIdx) :
    decodeWord c (pack c m (d.setWidth 32) (s.setWidth 32) 0#32 0#32) = .ok (i d s) :=
  decodeWord_pack hc hl (wordDecodes_two_registers (fun _ => getLsbD_packedFields_of_le _ _ _ _ _) hl hi)
    (congrArg₂ i (fieldA_packed rfl ..) (fieldB_packed rfl ..))

theorem decodeWord_pack_one_register {i : RegIdx → Instr} (hl : layoutOf c m = .l6)
    (hi : ∀ u, instrOf m u = i (readRole u.d)) (d : RegIdx) :
    decodeWord c (pack c m (d.setWidth 32) 0#32 0#32 0#32) = .ok (i d) :=
  decodeWord_pack hc hl (wordDecodes_one_register (fun _ => getLsbD_packedFields_of_le _ _ _ _ _) hl hi)
    (congrArg i (fieldA_packed rfl ..))

theorem decodeWord_pack_access {i : RegIdx → RegIdx → BitVec 3 → BitVec 18 → Instr} (hl : layoutOf c m = .l18)
    (hi : ∀ u, instrOf m u = i (readRole u.d) (readRole u.s) (readRole u.m) (u.imm.setWidth 18))
    (d s : RegIdx) (x : BitVec 3) (imm : BitVec 18) :
    decodeWord c (pack c m (d.setWidth 32) (s.setWidth 32) (x.setWidth 32) (imm.setWidth 32)) = .ok (i d s x imm) :=
  decodeWord_pack hc hl (wordDecodes_access (fun _ => getLsbD_packedFields_of_le _ _ _ _ _) hl hi) (by
    rw [fieldA_packed rfl, fieldB_packed rfl, fieldC_packed rfl]
    exact congrArg (i d s x) (setWidth_packed .l18 _ _ _ rfl imm))

theorem decodeWord_pack_register_immediate {i : RegIdx → BitVec 24 → Instr} (hl : layoutOf c m = .l24)
    (hi : ∀ u, instrOf m u = i (readRole u.d) (u.imm.setWidth 24)) (d : RegIdx) (imm : BitVec 24) :
    decodeWord c (pack c m (d.setWidth 32) 0#32 0#32 (imm.setWidth 32)) = .ok (i d imm) :=
  decodeWord_pack hc hl (wordDecodes_register_immediate (fun _ => getLsbD_packedFields_of_le _ _ _ _ _) hl hi)
    (congrArg₂ i (fieldA_packed rfl ..) (setWidth_packed .l24 _ _ _ rfl imm))

theorem decodeWord_pack_immediate {i : BitVec 27 → Instr} (hl : layoutOf c m = .l27)
    (hi : ∀ u, instrOf m u = i (u.imm.setWidth 27)) (imm : BitVec 27) :
    decodeWord c (pack c m 0#32 0#32 0#32 (imm.setWidth 32)) = .ok (i imm) :=
  decodeWord_pack hc hl (wordDecodes_immediate (fun _ => getLsbD_packedFields_of_le _ _ _ _ _) hl hi)
    (congrArg i (setWidth_packed .l27 _ _ _ rfl imm))

theorem decodeWord_pack_moviu (d : RegIdx) (imm : BitVec 16) :
    decodeWord c (pack c .moviu (d.setWidth 32) 0#32 0#32 (imm.setWidth 32)) = .ok (.moviu d imm) :=
  decodeWord_pack hc rfl (wordDecodes_moviu fun _ => getLsbD_packedFields_of_le _ _ _ _ _)
    (congrArg₂ Instr.moviu (fieldA_packed rfl ..) (setWidth_packed .l16 _ _ _ rfl imm))

theorem decodeWord_pack_shift (d : RegIdx) (x : BitVec 3) (imm : BitVec 21) :
    decodeWord c (pack c .shift (d.setWidth 32) (x.setWidth 32) 0#32 (imm.setWidth 32)) = .ok (.shift d x imm) :=
  decodeWord_pack hc rfl (wordDecodes_shift fun _ => getLsbD_packedFields_of_le _ _ _ _ _) (by
    rw [fieldA_packed rfl, fieldB_packed rfl]
    exact congrArg (Instr.shift d x) (setWidth_packed .l21 _ _ _ rfl imm))

/-- JSR under L27: the link register is read from the immediate, where a well-formed JSR has it (R52). -/
theorem decodeWord_pack_jsr_l27 (hl : c.jsrLayout = .l27) (d : RegIdx) (imm : BitVec 27)
    (hd : imm.extractLsb' 24 3 = d) :
    decodeWord c (pack c .jsr (d.setWidth 32) 0#32 0#32 (imm.setWidth 32)) = .ok (.jsr d imm) := by
  have layout : layoutOf c .jsr = .l27 := by rw [layoutOf, hl]
  refine decodeWord_pack hc layout (wordDecodes_jsr_l27 (fun _ => getLsbD_packedFields_of_le _ _ _ _ _) hl)
    (congrArg₂ Instr.jsr ?_ (setWidth_packed .l27 _ _ _ rfl imm))
  have link := fieldA_packedFields .l27 (d.setWidth 32) 0#32 0#32 (imm.setWidth 32)
  have immediate : imm.setWidth 32 &&& mask 27 = imm.setWidth 32 := zext_setWidth (by decide) imm
  simpa [Layout.hasFieldA, Layout.width, immediate, BitVec.extractLsb'_setWidth_of_le, hd] using link

/-- JSR under L24: a well-formed JSR has an immediate of 24 bits (R52). -/
theorem decodeWord_pack_jsr_l24 (hl : c.jsrLayout = .l24) (d : RegIdx) (imm : BitVec 27)
    (hd : imm.extractLsb' 24 3 = 0#3) :
    decodeWord c (pack c .jsr (d.setWidth 32) 0#32 0#32 (imm.setWidth 32)) = .ok (.jsr d imm) := by
  have layout : layoutOf c .jsr = .l24 := by rw [layoutOf, hl]
  refine decodeWord_pack hc layout (wordDecodes_jsr_l24 (fun _ => getLsbD_packedFields_of_le _ _ _ _ _) hl)
    (congrArg₂ Instr.jsr (fieldA_packed rfl ..) ?_)
  have cut := setWidth_packedFields .l24 (d.setWidth 32) 0#32 0#32 (imm.setWidth 32)
  rw [show Layout.l24.width = 24 from rfl, BitVec.setWidth_setWidth_of_le imm (by decide)] at cut
  rw [cut, setWidth_setWidth_of_extract_eq_zero hd]

theorem decodeWord_pack_halt : decodeWord c (pack c .halt 0#32 0#32 0#32 0#32) = .ok .halt :=
  decodeWord_pack hc rfl (wordDecodes_halt fun _ => getLsbD_packedFields_of_le _ _ _ _ _) rfl

/-- Every well-formed instruction is what its word decodes to. -/
theorem decodeWord_encodeWord (i : Instr) (hi : i.wf c = true) : decodeWord c (encodeWord c i) = .ok i := by
  cases i with
  | and d s | or d s | xor d s | not d s | add d s | adc d s | sub d s | cmp d s | xchg d s | mult d s | div d s
  | mov d s => exact decodeWord_pack_two_registers hc rfl (fun _ => rfl) d s
  | push d | pop d | swapcc d => exact decodeWord_pack_one_register hc rfl (fun _ => rfl) d
  | load d s m imm | store d s m imm => exact decodeWord_pack_access hc rfl (fun _ => rfl) d s m imm
  | addi d imm | addiu d imm | cmpiu d imm | jr d imm =>
    exact decodeWord_pack_register_immediate hc rfl (fun _ => rfl) d imm
  | jne imm | jl imm | jmp imm | sys imm => exact decodeWord_pack_immediate hc rfl (fun _ => rfl) imm
  | moviu d imm => exact decodeWord_pack_moviu hc d imm
  | shift d m imm => exact decodeWord_pack_shift hc d m imm
  | halt => exact decodeWord_pack_halt hc
  | jsr d imm =>
    cases hl : c.jsrLayout with
    | l27 => exact decodeWord_pack_jsr_l27 hc hl d imm (by simpa [Instr.wf, jsrWellFormed, hl] using hi)
    | l24 => exact decodeWord_pack_jsr_l24 hc hl d imm (by simpa [Instr.wf, jsrWellFormed, hl] using hi)

end

/-- Decoding the four bytes of a word, whatever follows them (R46). -/
theorem decode_bytesOf_append (c : Config) {w : Word} {i : Instr} (h : decodeWord c w = .ok i) (rest : List Byte) :
    decode c (bytesOf 4 w ++ rest) = .ok (i, rest) := by
  have word : littleEndian (bytesOf 4 w) = w := littleEndian_bytesOf_four w
  simp only [bytesOf, List.cons_append, List.nil_append, decode] at word ⊢
  rw [word, h]

/-- Settles O2: the word of each form of operands decodes to the instruction, and its bytes are those of the word. -/
theorem decodeOfEncodeIsTheInstruction : Obligations.DecodeOfEncodeIsTheInstruction := by
  unfold Obligations.DecodeOfEncodeIsTheInstruction
  intro c i rest hc hi
  have word := decodeWord_encodeWord hc i hi
  exact ⟨word, decode_bytesOf_append c word rest⟩

end Sys2Proof.Machine
end

section
/-! PROOFS. The other direction of 30_encoding.md section 3: the bits a handler does not read change nothing, and
without them a word is what its instruction encodes to (R51). -/

namespace Sys2Proof.Machine

/-! ### The bits a handler reads -/

/-- A place where a mask is all ones keeps its bits. -/
theorem extract_and_of_ones (w : Word) {used : Word} {j len : Nat} (h : used.extractLsb' j len = BitVec.allOnes len) :
    (w &&& used).extractLsb' j len = w.extractLsb' j len := by
  rw [BitVec.extractLsb'_and, h, BitVec.and_allOnes]

/-- A mask sees nothing of a word whose bits lie outside it. -/
theorem and_eq_zero_of_used {w used n : Word} (hw : w &&& used = w) (h : used &&& n = 0#32) : w &&& n = 0#32 := by
  rw [← hw, BitVec.and_assoc, h, BitVec.and_zero]

/-- The opcode is among the bits a handler reads. -/
theorem opField_and_usedBits (w : Word) (m : Mnemonic) : opField (w &&& usedBits m) = opField w :=
  extract_and_of_ones w (by cases m <;> decide)

/-- The bits no handler reads are no part of the instruction: what is read of a word of two registers, of one, and of
MOVIU lies in the bits kept, HALT reads nothing, and the other handlers read every bit. -/
theorem instrOf_and_usedBits {c : Config} {w : Word} {m : Mnemonic} (hm : mnemonicOf c.opcodeMap (opField w) = some m) :
    instrOf m (unpack c (w &&& usedBits m)) = instrOf m (unpack c w) := by
  have hm' : mnemonicOf c.opcodeMap (opField (w &&& usedBits m)) = some m := by rwa [opField_and_usedBits]
  have every : w &&& 0xFFFFFFFF#32 = w := BitVec.and_allOnes
  have two : fieldA (w &&& 0xFFE00000#32) = fieldA w ∧ fieldB (w &&& 0xFFE00000#32) = fieldB w :=
    ⟨extract_and_of_ones w (by decide), extract_and_of_ones w (by decide)⟩
  have one : fieldA (w &&& 0xFF000000#32) = fieldA w := extract_and_of_ones w (by decide)
  have upper : fieldA (w &&& 0xFF00FFFF#32) = fieldA w := extract_and_of_ones w (by decide)
  have half : w &&& 0xFF00FFFF#32 &&& mask 16 = w &&& mask 16 := by
    rw [BitVec.and_assoc, show 0xFF00FFFF#32 &&& mask 16 = mask 16 by decide]
  simp only [unpack, hm, hm']
  cases m with
  | and | or | xor | not | add | adc | sub | cmp | xchg | mult | div | mov =>
    simp only [usedBits, instrOf, layoutOf, roleD, roleS, two]
  | push | pop | swapcc => simp only [usedBits, instrOf, layoutOf, roleD, one]
  | moviu => simp only [usedBits, instrOf, layoutOf, roleD, Layout.width, upper, half]
  | halt => rfl
  | load | store | addi | addiu | cmpiu | shift | jne | jl | jsr | jmp | jr | sys => simp only [usedBits, every]

/-! ### A word as its fields -/

/-- The low bits of a word, a field at the top of them taken apart. -/
theorem and_mask_add (w : Word) {k n : Nat} (h : k + n ≤ 31) :
    w &&& mask (k + n) = fieldAt (w.extractLsb' k n) k ||| (w &&& mask k) := by
  ext j hj
  rw [← BitVec.getLsbD_eq_getElem, ← BitVec.getLsbD_eq_getElem]
  simp only [BitVec.getLsbD_or, BitVec.getLsbD_and, getLsbD_fieldAt, getLsbD_mask h,
    getLsbD_mask (show k ≤ 31 by omega), BitVec.getLsbD_extractLsb', hj, decide_true, Bool.true_and]
  by_cases low : j < k
  · simp [low, show j < k + n by omega]
  · have place : k + (j - k) = j := by omega
    have inside : (j - k < n) = (j < k + n) := by rw [eq_iff_iff]; omega
    simp [low, place, inside, Bool.and_comm]

/-- A word is its opcode and the 27 bits below. -/
theorem opcodeWord_opField (w : Word) : opcodeWord (opField w) (w &&& mask 27) = w := by
  ext j hj
  rw [← BitVec.getLsbD_eq_getElem, ← BitVec.getLsbD_eq_getElem]
  simp only [opcodeWord, opField, BitVec.getLsbD_or, BitVec.getLsbD_and, BitVec.getLsbD_shiftLeft,
    BitVec.getLsbD_setWidth, BitVec.getLsbD_extractLsb', getLsbD_mask (show 27 ≤ 31 by decide), hj, decide_true,
    Bool.true_and]
  by_cases low : j < 27
  · simp [low]
  · simp [low, show 27 + (j - 27) = j by omega, show j - 27 < 32 by omega, show j - 27 < 5 by omega]

/-- `Pack` gives a word back when it packs the opcode and the bits below. -/
theorem pack_eq_of_fields {c : Config} {m : Mnemonic} {layout : Layout} {w fa fb fc imm : Word}
    (hop : c.opcodeMap.code m = opField w) (hl : layoutOf c m = layout)
    (h : packedFields layout fa fb fc imm = w &&& mask 27) : pack c m fa fb fc imm = w := by
  rw [pack_eq_opcodeWord, hl, hop, h, opcodeWord_opField]

section
variable (w : Word)

theorem and_mask_27 : w &&& mask 27 = fieldAt (fieldA w) 24 ||| (w &&& mask 24) :=
  and_mask_add (k := 24) (n := 3) w (by decide)
theorem and_mask_24 : w &&& mask 24 = fieldAt (fieldB w) 21 ||| (w &&& mask 21) :=
  and_mask_add (k := 21) (n := 3) w (by decide)
theorem and_mask_21 : w &&& mask 21 = fieldAt (fieldC w) 18 ||| (w &&& mask 18) :=
  and_mask_add (k := 18) (n := 3) w (by decide)

end

/-- The immediate of `Unpack` packs as itself, whatever width the instruction holds it in. -/
theorem unpacked_and_mask (w : Word) {n k : Nat} (hk : n ≤ k) (hn : n ≤ 31) :
    ((w &&& mask n).setWidth k).setWidth 32 &&& mask n = w &&& mask n := by
  have cut (v : Word) : v &&& mask n = (v.setWidth n).setWidth 32 := zext_eq hn v
  rw [cut (BitVec.setWidth 32 _), BitVec.setWidth_setWidth_of_le _ (show n ≤ 32 by omega),
    BitVec.setWidth_setWidth_of_le _ hk, setWidth_and_mask w hn, cut]

@[simp] theorem fieldAt_zero_value (n k : Nat) : fieldAt 0#n k = 0#32 := by
  rw [fieldAt, BitVec.setWidth_zero, BitVec.zero_shiftLeft]

/-! The fields each layout packs, when they are those of a word with no unused bit set. -/

section
variable {w : Word}

theorem packedFields_two_registers (clear : w &&& mask 21 = 0#32) :
    packedFields .l6 ((fieldA w).setWidth 32) ((fieldB w).setWidth 32) 0#32 0#32 = w &&& mask 27 := by
  simp [and_mask_27, and_mask_24, clear]

theorem packedFields_one_register (clear : w &&& mask 24 = 0#32) :
    packedFields .l6 ((fieldA w).setWidth 32) 0#32 0#32 0#32 = w &&& mask 27 := by
  simp [and_mask_27, clear]

theorem packedFields_access {imm : Word} (h : imm &&& mask 18 = w &&& mask 18) :
    packedFields .l18 ((fieldA w).setWidth 32) ((fieldB w).setWidth 32) ((fieldC w).setWidth 32) imm =
      w &&& mask 27 := by
  simp [and_mask_27, and_mask_24, and_mask_21, h, BitVec.or_assoc]

theorem packedFields_moviu {imm : Word} (clear : w &&& mask 24 = w &&& mask 16) (h : imm &&& mask 16 = w &&& mask 16) :
    packedFields .l16 ((fieldA w).setWidth 32) 0#32 0#32 imm = w &&& mask 27 := by
  simp [and_mask_27, clear, h]

theorem packedFields_shift {imm : Word} (h : imm &&& mask 21 = w &&& mask 21) :
    packedFields .l21 ((fieldA w).setWidth 32) ((fieldB w).setWidth 32) 0#32 imm = w &&& mask 27 := by
  simp [and_mask_27, and_mask_24, h, BitVec.or_assoc]

theorem packedFields_register_immediate {imm : Word} (h : imm &&& mask 24 = w &&& mask 24) :
    packedFields .l24 ((fieldA w).setWidth 32) 0#32 0#32 imm = w &&& mask 27 := by
  simp [and_mask_27, h]

theorem packedFields_immediate {imm : Word} (fa fb fc : Word) (h : imm &&& mask 27 = w &&& mask 27) :
    packedFields .l27 fa fb fc imm = w &&& mask 27 := by
  rw [packedFields_l27, h]

end

/-- Encoding what `Unpack` reads of a word with no unused bit set gives the word back. -/
theorem encodeWord_instrOf {c : Config} {w : Word} {m : Mnemonic} (hm : mnemonicOf c.opcodeMap (opField w) = some m)
    (hw : w &&& usedBits m = w) : encodeWord c (instrOf m (unpack c w)) = w := by
  have hop := code_of_mnemonicOf hm
  simp only [unpack, hm]
  cases m with
  | and | or | xor | not | add | adc | sub | cmp | xchg | mult | div | mov =>
    exact pack_eq_of_fields hop rfl (packedFields_two_registers (and_eq_zero_of_used hw (by decide)))
  | push | pop | swapcc =>
    exact pack_eq_of_fields hop rfl (packedFields_one_register (and_eq_zero_of_used hw (by decide)))
  | load | store =>
    exact pack_eq_of_fields hop rfl (packedFields_access (unpacked_and_mask (n := 18) w le_rfl (by decide)))
  | addi | addiu | cmpiu | jr =>
    exact pack_eq_of_fields hop rfl (packedFields_register_immediate (unpacked_and_mask (n := 24) w le_rfl (by decide)))
  | shift => exact pack_eq_of_fields hop rfl (packedFields_shift (unpacked_and_mask (n := 21) w le_rfl (by decide)))
  | jne | jl | jmp | sys =>
    exact pack_eq_of_fields hop rfl (packedFields_immediate _ _ _ (unpacked_and_mask (n := 27) w le_rfl (by decide)))
  | moviu =>
    have clear : w &&& mask 24 = w &&& mask 16 := by
      have masks : usedBits .moviu &&& mask 24 = usedBits .moviu &&& mask 16 := by decide
      rw [← hw, BitVec.and_assoc, BitVec.and_assoc, masks]
    exact pack_eq_of_fields hop rfl (packedFields_moviu clear (unpacked_and_mask (n := 16) w le_rfl (by decide)))
  | halt =>
    have clear : w &&& mask 27 = 0#32 := and_eq_zero_of_used hw (by decide)
    exact pack_eq_of_fields hop rfl (packedFields_immediate _ _ _ (BitVec.zero_and.trans clear.symm))
  | jsr =>
    cases hl : c.jsrLayout with
    | l27 =>
      have layout : layoutOf c .jsr = .l27 := by rw [layoutOf, hl]
      simp only [instrOf, layout]
      exact pack_eq_of_fields hop layout (packedFields_immediate _ _ _ (unpacked_and_mask w (by decide) (by decide)))
    | l24 =>
      have layout : layoutOf c .jsr = .l24 := by rw [layoutOf, hl]
      simp only [instrOf, layout]
      exact pack_eq_of_fields hop layout (packedFields_register_immediate (unpacked_and_mask w (by decide) (by decide)))

/-- Whatever a word decodes to is well formed: only JSR has a condition, and its fields come from one word (R52). -/
theorem wf_instrOf_unpack {c : Config} {w : Word} {m : Mnemonic} (hm : mnemonicOf c.opcodeMap (opField w) = some m) :
    (instrOf m (unpack c w)).wf c = true := by
  simp only [unpack, hm]
  cases m with
  | jsr =>
    cases hl : c.jsrLayout with
    | l27 =>
      have link : ((w &&& mask 27).setWidth 27).extractLsb' 24 3 = fieldA w := by
        rw [setWidth_and_mask w (by decide), BitVec.extractLsb'_setWidth_of_le (by decide), fieldA]
      simpa [instrOf, Instr.wf, jsrWellFormed, layoutOf, roleD, readRole, hl, Layout.width] using link
    | l24 =>
      have upper : ((w &&& mask 24).setWidth 27).extractLsb' 24 3 = 0#3 := by
        rw [BitVec.extractLsb'_setWidth_of_le (by decide), extract_and_mask_of_le w (by decide) (by decide)]
      simpa [instrOf, Instr.wf, jsrWellFormed, layoutOf, hl, Layout.width] using upper
  | _ => rfl

/-- Settles O3: the unused bits change no operand, and the word without them is packed from its own fields. -/
theorem encodeOfDecodeClearsUnusedBits : Obligations.EncodeOfDecodeClearsUnusedBits := by
  unfold Obligations.EncodeOfDecodeClearsUnusedBits
  intro c w i h
  obtain ⟨m, hm, rfl, same⟩ := decodeWord_ok h
  have hm' : mnemonicOf c.opcodeMap (opField (w &&& usedBits m)) = some m := by rwa [opField_and_usedBits]
  have used : w &&& usedBits m &&& usedBits m = w &&& usedBits m := by rw [BitVec.and_assoc, BitVec.and_self]
  rw [same, ← instrOf_and_usedBits hm]
  exact ⟨wf_instrOf_unpack hm', encodeWord_instrOf hm' used, by simp only [decodeWord, hm']⟩

end Sys2Proof.Machine
end

section
/-! PROOFS. The statements of 30_encoding.md sections 5 and 7: unassigned opcodes, the range warning, and what the
assembler gives JNE and JL. -/

namespace Sys2Proof.Machine

/-! ### Unassigned opcodes -/

/-- A word decodes to the refusal of its opcode exactly when no mnemonic is found for it. -/
theorem decodeWord_eq_unassigned {c : Config} {w : Word} :
    decodeWord c w = .error (.unassignedOpcode (opField w)) ↔ mnemonicOf c.opcodeMap (opField w) = none := by
  unfold decodeWord
  split <;> simp_all

/-- The reference map leaves out the opcodes from 29 on (R62, R63): each of the 32 opcodes is looked up. -/
theorem mnemonicOf_reference_eq_none : ∀ op, mnemonicOf referenceOpcodeMap op = none ↔ 29 ≤ op.toNat := by
  decide

/-- Settles O4: decoding fails only where the opcode map has no mnemonic. -/
theorem unassignedOpcodesDecodeToNothing : Obligations.UnassignedOpcodesDecodeToNothing := by
  unfold Obligations.UnassignedOpcodesDecodeToNothing
  refine ⟨fun c w => ?_, fun w => ?_⟩
  · rw [decodeWord_eq_unassigned, mnemonicOf_eq_none]
  · rw [decodeWord_eq_unassigned]
    exact mnemonicOf_reference_eq_none (opField w)

/-! ### The range warning -/

/-- The bits above the mask are clear exactly in the values below 2^N. -/
theorem and_not_mask_eq_zero_iff {n : Nat} (h : n ≤ 31) (v : Word) : v &&& ~~~(mask n) = 0#32 ↔ v.toNat < 2 ^ n := by
  refine ⟨fun clear => ?_, and_not_mask_eq_zero h⟩
  have low : zext n v = v := by
    calc v &&& mask n = (v &&& mask n) ||| (v &&& ~~~(mask n)) := by rw [clear, BitVec.or_zero]
      _ = v := by rw [← BitVec.and_or_distrib_left, BitVec.or_not_self, BitVec.and_allOnes]
  rw [← low, toNat_zext h]
  exact Nat.mod_lt _ (Nat.two_pow_pos n)

/-- A word has all bits of a mask exactly when its complement has none. -/
theorem and_eq_mask_iff (v n : Word) : v &&& n = n ↔ ~~~v &&& n = 0#32 := by
  refine ⟨fun all => ?_, fun none => ?_⟩
  · rw [← all, ← BitVec.and_assoc, BitVec.not_and_self]
    exact BitVec.zero_and
  · calc v &&& n = (v &&& n) ||| (~~~v &&& n) := by rw [none, BitVec.or_zero]
      _ = n := by rw [← BitVec.and_or_distrib_right, BitVec.or_not_self, BitVec.allOnes_and]

/-- A negative value has all bits above the mask set exactly from -2^N on. -/
theorem and_not_mask_eq_not_mask_iff_le {n : Nat} (h : n ≤ 31) {v : Word} (hv : v.msb = true) :
    v &&& ~~~(mask n) = ~~~(mask n) ↔ -(2 ^ n) ≤ v.toInt := by
  have value := BitVec.toInt_eq_msb_cond v
  have bound := v.isLt
  have power : ((2 ^ n : Nat) : Int) = 2 ^ n := by norm_cast
  rw [and_eq_mask_iff, and_not_mask_eq_zero_iff h, BitVec.toNat_not, value, if_pos hv]
  omega

/-- Settles O8: a signed operand expects ones above the mask when it is negative and zeros otherwise, and an unsigned
one expects zeros. -/
theorem rangeWarningTestsBitsAboveTheMask : Obligations.RangeWarningTestsBitsAboveTheMask := by
  unfold Obligations.RangeWarningTestsBitsAboveTheMask
  intro v size address _ h
  have power : ((2 ^ size : Nat) : Int) = 2 ^ size := by norm_cast
  have positive := Nat.two_pow_pos size
  have small : 2 ^ size ≤ 2 ^ 31 := Nat.pow_le_pow_right (by decide) h
  have value := BitVec.toInt_eq_msb_cond v
  have bound := v.isLt
  refine ⟨?_, ?_⟩
  · cases sign : v.msb with
    | true =>
      simp only [immEncode, immRelative_false, immShifted_zero, sign, Bool.and_self, if_true, bne_eq_false_iff_eq]
      rw [and_not_mask_eq_not_mask_iff_le h sign, value, if_pos sign]
      omega
    | false =>
      simp only [immEncode, immRelative_false, immShifted_zero, sign, Bool.and_false, Bool.false_eq_true, if_false,
        bne_eq_false_iff_eq]
      rw [and_not_mask_eq_zero_iff h, value, sign, if_neg Bool.false_ne_true]
      omega
  · simp only [immEncode, immRelative_false, immShifted_zero, Bool.false_and, Bool.false_eq_true, if_false,
      bne_eq_false_iff_eq]
    exact and_not_mask_eq_zero_iff h v

/-! ### The assembled branch -/

/-- Cutting a word to N bits and widening it again keeps a value that N bits hold. -/
theorem signExtend_setWidth_of_bounds {n : Nat} (hn : n + 1 ≤ 32) {v : Word} (low : -(2 ^ n) ≤ v.toInt)
    (high : v.toInt < 2 ^ n) : (v.setWidth (n + 1)).signExtend 32 = v := by
  apply BitVec.eq_of_toInt_eq
  have divides : 2 ^ (n + 1) ∣ 2 ^ 32 := Nat.pow_dvd_pow 2 hn
  have half : ((2 ^ (n + 1) : Nat) : Int) = 2 * 2 ^ n := by push_cast; ring
  rw [BitVec.toInt_signExtend_of_le hn, BitVec.toInt_setWidth, ← Int.bmod_bmod_of_dvd divides,
    ← BitVec.toInt_eq_toNat_bmod, Int.bmod_eq_of_le (by omega) (by omega)]

/-- Shifting a multiple of 4 right and left again gives it back. -/
theorem sshiftRight_shiftLeft_of_aligned {v : Word} (h : v &&& 3#32 = 0#32) : v.sshiftRight 2 <<< 2 = v := by
  ext j hj
  rw [← BitVec.getLsbD_eq_getElem, ← BitVec.getLsbD_eq_getElem, BitVec.getLsbD_shiftLeft, BitVec.getLsbD_sshiftRight]
  by_cases low : j < 2
  · have clear : (v &&& mask 2).getLsbD j = false := by rw [show mask 2 = 3#32 by decide, h, BitVec.getLsbD_zero]
    rw [BitVec.getLsbD_and, getLsbD_mask (by decide)] at clear
    simpa [low] using clear.symm
  · simp [low, hj, show 2 + (j - 2) = j by omega, show j - 2 < 32 by omega]

/-- The displacement the assembler packs for a relative target is the distance, when it is a multiple of 4 in reach. -/
theorem displacement27_of_immEncode {target address : Word} (aligned : (target - address) &&& 3#32 = 0#32)
    (low : -(2 ^ 28) ≤ (target - address).toInt) (high : (target - address).toInt < 2 ^ 28) :
    displacement27 ((immEncode target 27 true 2 true address).value.setWidth 27) = target - address := by
  have value : (immEncode target 27 true 2 true address).value.setWidth 27 =
      ((target - address).sshiftRight 2).setWidth 27 := setWidth_and_mask _ (by decide)
  have quarter : ((target - address).sshiftRight 2).toInt = (target - address).toInt / 4 := by
    rw [BitVec.toInt_sshiftRight, Int.shiftRight_eq_div_pow]
    rfl
  rw [displacement27_eq, value, signExtend_setWidth_of_bounds (n := 26) (by decide) (by omega) (by omega),
    sshiftRight_shiftLeft_of_aligned aligned]

/-- Settles O9: the assembled word is an L27 word of the packed value, whose displacement is the distance. -/
theorem assembledBranchReachesItsTarget : Obligations.AssembledBranchReachesItsTarget := by
  unfold Obligations.AssembledBranchReachesItsTarget
  intro c address o hc aligned low high
  have above (j : Nat) (hj : 27 ≤ j) : (immEncode o.operand 27 true 2 true address).value.getLsbD j = false := by
    rw [← immEncode_value_and_mask, BitVec.getLsbD_and, getLsbD_mask (by decide)]
    simp [show ¬j < 27 by omega]
  have word (m : Mnemonic) (i : BitVec 27 → Instr) (hl : layoutOf c m = .l27)
      (hi : ∀ u, instrOf m u = i (u.imm.setWidth 27)) (hk : descriptorOf c m = some ⟨2, true, 27, true⟩) :
      decodeWord c (assemble c address m o) =
        .ok (i ((immEncode o.operand 27 true 2 true address).value.setWidth 27)) := by
    rw [assemble_l27 hl hk]
    exact wordDecodes_immediate above hl hi hc
  refine ⟨_, word .jne .jne rfl (fun _ => rfl) rfl, word .jl .jl rfl (fun _ => rfl) rfl, ?_⟩
  rw [displacement27_of_immEncode aligned low high]
  exact add_sub_cancel address o.operand

end Sys2Proof.Machine
end

section
/-! PROOFS. What the handlers that branch do, by case: on a reserved operand, on the range of an access, on the console
port. -/

namespace Sys2Proof.Machine

variable {st : State} {d s : RegIdx} {m : BitVec 3} {n : Size}

/-! ### DIV (41_register_alu.md R93) -/

theorem handleDiv_undefined (h : divUndefined (st.readReg d) (st.readReg s) = true) :
    handleDiv d s st = .undefined .divide := by
  rw [handleDiv, if_pos h]

theorem handleDiv_defined (h : divUndefined (st.readReg d) (st.readReg s) = false) :
    handleDiv d s st = .done ((st.writeReg d (BitVec.ofInt 32 (quotient (st.readReg d) (st.readReg s)))).writeReg s
      (BitVec.ofInt 32 (remainder (st.readReg d) (st.readReg s)))) := by
  rw [handleDiv, if_neg (ne_true_of_eq_false h)]

/-! ### LOAD and STORE (42_load_store.md R97, R98) -/

section
variable {imm : BitVec 18}

theorem handleLoad_reserved (hm : accessSize m = none) : handleLoad d s m imm st = .undefined .size := by
  simp only [handleLoad, hm]

theorem handleLoad_inRange (hm : accessSize m = some n)
    (h : (st.effectiveAddress s imm).toNat + n.bytes ≤ st.config.memSize) :
    handleLoad d s m imm st = .done (st.writeReg d (widen st.config.loadExt n
      (littleEndian (st.dmem.readBytes (st.effectiveAddress s imm).toNat n.bytes)))) := by
  simp only [handleLoad, hm, State.memRead_eq, if_pos h]

theorem handleLoad_outOfRange (hm : accessSize m = some n)
    (h : ¬(st.effectiveAddress s imm).toNat + n.bytes ≤ st.config.memSize) :
    handleLoad d s m imm st = .memoryFault (st.effectiveAddress s imm) := by
  simp only [handleLoad, hm, State.memRead_eq, if_neg h]

theorem handleStore_reserved (hm : accessSize m = none) : handleStore d s m imm st = .undefined .size := by
  simp only [handleStore, hm]

theorem handleStore_console (hm : accessSize m = some n)
    (hc : n = .byte ∧ st.effectiveAddress s imm = st.config.consoleAddr) :
    handleStore d s m imm st = .done (st.putByte ((st.readReg d).setWidth 8)) := by
  simp only [handleStore, hm, State.memWrite_eq, if_pos hc]

theorem handleStore_inRange (hm : accessSize m = some n)
    (hc : ¬(n = .byte ∧ st.effectiveAddress s imm = st.config.consoleAddr))
    (h : (st.effectiveAddress s imm).toNat + n.bytes ≤ st.config.memSize) :
    handleStore d s m imm st = .done (st.setDmem
      (st.dmem.writeBytes (st.effectiveAddress s imm).toNat (bytesOf n.bytes (st.readReg d)))) := by
  simp only [handleStore, hm, State.memWrite_eq, if_neg hc, if_pos h]

theorem handleStore_outOfRange (hm : accessSize m = some n)
    (hc : ¬(n = .byte ∧ st.effectiveAddress s imm = st.config.consoleAddr))
    (h : ¬(st.effectiveAddress s imm).toNat + n.bytes ≤ st.config.memSize) :
    handleStore d s m imm st = .memoryFault (st.effectiveAddress s imm) := by
  simp only [handleStore, hm, State.memWrite_eq, if_neg hc, if_neg h]

end

/-! ### PUSH, POP and SYS (R99 to R101, 44_control.md R114) -/

theorem handlePush_inRange (h : (pushTarget st.config.stackMode st.sp).toNat + 4 ≤ st.config.memSize) :
    handlePush d st = .done ((st.setDmem (st.dmem.writeBytes (pushTarget st.config.stackMode st.sp).toNat
      (bytesOf 4 (st.readReg d)))).writeReg spReg (st.sp - 4#32)) := by
  simp only [handlePush, State.pushWord_eq, if_pos h]

theorem handlePush_outOfRange (h : ¬(pushTarget st.config.stackMode st.sp).toNat + 4 ≤ st.config.memSize) :
    handlePush d st = .memoryFault (pushTarget st.config.stackMode st.sp) := by
  simp only [handlePush, State.pushWord_eq, if_neg h]

theorem handlePop_inRange (h : (popTarget st.config.stackMode st.sp).toNat + 4 ≤ st.config.memSize) :
    handlePop d st =
      let v := littleEndian (st.dmem.readBytes (popTarget st.config.stackMode st.sp).toNat 4)
      .done ((st.writeReg d v).writeReg spReg ((if d = spReg then v else st.sp) + 4#32)) := by
  have read := (st.memRead_eq (popTarget st.config.stackMode st.sp) .word).trans (if_pos h)
  simp only [handlePop, State.popAddress_eq, read, State.sp_writeReg, Size.bytes]

theorem handlePop_outOfRange (h : ¬(popTarget st.config.stackMode st.sp).toNat + 4 ≤ st.config.memSize) :
    handlePop d st = .memoryFault (popTarget st.config.stackMode st.sp) := by
  have read := (st.memRead_eq (popTarget st.config.stackMode st.sp) .word).trans (if_neg h)
  simp only [handlePop, State.popAddress_eq, read]

theorem handleSys_inRange {imm : BitVec 27}
    (h : (pushTarget st.config.stackMode st.sp).toNat + 4 ≤ st.config.memSize) :
    handleSys imm st = .done (((st.setDmem (st.dmem.writeBytes (pushTarget st.config.stackMode st.sp).toNat
      (bytesOf 4 st.pc))).writeReg spReg (st.sp - 4#32)).writeReg pcReg (vectorAddress imm)) := by
  simp only [handleSys, State.pushWord_eq, if_pos h]

theorem handleSys_outOfRange {imm : BitVec 27}
    (h : ¬(pushTarget st.config.stackMode st.sp).toNat + 4 ≤ st.config.memSize) :
    handleSys imm st = .memoryFault (pushTarget st.config.stackMode st.sp) := by
  simp only [handleSys, State.pushWord_eq, if_neg h]

/-! ### What such a handler leaves when it completes -/

section
variable {copy : State}

theorem handleDiv_done (h : handleDiv d s st = .done copy) : ∃ v u, copy = (st.writeReg d v).writeReg s u := by
  unfold handleDiv at h
  split at h <;> cases h
  exact ⟨_, _, rfl⟩

theorem handleShift_done {imm : BitVec 21} (h : handleShift d m imm st = .done copy) : ∃ v, copy = st.writeReg d v := by
  unfold handleShift at h
  split at h <;> cases h
  exact ⟨_, rfl⟩

theorem handleLoad_done {imm : BitVec 18} (h : handleLoad d s m imm st = .done copy) :
    ∃ v, copy = st.writeReg d v := by
  unfold handleLoad at h
  split at h
  · cases h
  · split at h <;> cases h
    exact ⟨_, rfl⟩

theorem handlePop_done (h : handlePop d st = .done copy) : ∃ v u, copy = (st.writeReg d v).writeReg spReg u := by
  unfold handlePop at h
  split at h <;> cases h
  exact ⟨_, _, rfl⟩

theorem handleStore_done {imm : BitVec 18} (h : handleStore d s m imm st = .done copy) :
    ∃ (a v : Word) (k : Size), st.memWrite a k v = .ok copy := by
  unfold handleStore at h
  split at h
  · cases h
  · split at h <;> cases h
    exact ⟨_, _, _, ‹_›⟩

theorem handlePush_done (h : handlePush d st = .done copy) :
    ∃ mem v, copy = (st.setDmem mem).writeReg spReg v := by
  by_cases hb : (pushTarget st.config.stackMode st.sp).toNat + 4 ≤ st.config.memSize
  · cases (handlePush_inRange hb).symm.trans h
    exact ⟨_, _, rfl⟩
  · cases (handlePush_outOfRange hb).symm.trans h

theorem handleSys_done {imm : BitVec 27} (h : handleSys imm st = .done copy) :
    ∃ mem v u, copy = ((st.setDmem mem).writeReg spReg v).writeReg pcReg u := by
  by_cases hb : (pushTarget st.config.stackMode st.sp).toNat + 4 ≤ st.config.memSize
  · cases (handleSys_inRange hb).symm.trans h
    exact ⟨_, _, _, rfl⟩
  · cases (handleSys_outOfRange hb).symm.trans h

end

end Sys2Proof.Machine
end

section
/-! PROOFS. The statements of 40_engine.md about one step: what it does by its fetch, its decoding and its handler. -/

namespace Sys2Proof.Machine

/-! ### One step, by what the fetch reads (40_engine.md R70, R71) -/

section
variable {s : State} (running : s.run = .running)
include running

theorem step_of_fetch_error {f : Word} (hf : s.fetch s.pc = .error f) : step s = .next (s.faultStep f) := by
  simp only [step, guardedStep, running, runningStep, hf]

theorem step_of_decode_error {w : Word} {e : DecodeError} (hw : s.fetch s.pc = .ok w)
    (he : decodeWord s.config w = .error e) : step s = .next s.undefinedStop := by
  simp only [step, guardedStep, running, runningStep, hw, he]

theorem step_of_decode_ok {w : Word} {i : Instr} (hw : s.fetch s.pc = .ok w) (hi : decodeWord s.config w = .ok i) :
    step s = exec i s := by
  simp only [step, guardedStep, running, runningStep, hw, hi]

end

/-- A fetch where R38 lets it succeeds with the word read there. -/
theorem fetch_pc_of_fetchable {s : State} {w : Word} (hf : Fetchable s) (hw : FetchReads s w) :
    s.fetch s.pc = .ok w := by
  rw [State.fetch_eq, if_pos (s.canFetch_iff.2 hf), (fetchReads_iff s w).1 hw]

/-- A fetch elsewhere faults at the PC. -/
theorem fetch_pc_of_not_fetchable {s : State} (hf : ¬Fetchable s) : s.fetch s.pc = .error s.pc := by
  rw [State.fetch_eq, if_neg fun h => hf (s.canFetch_iff.1 h)]

/-- Settles O10: the fetch succeeds with that word, and the word decodes. -/
theorem stepRunsTheDecodedInstruction : Obligations.StepRunsTheDecodedInstruction := by
  unfold Obligations.StepRunsTheDecodedInstruction
  intro s w i running hf hw hi
  exact step_of_decode_ok running (fetch_pc_of_fetchable hf hw) hi

/-- Settles O11: the fetch faults at the PC, and the fault is taken. -/
theorem fetchOutOfRangeTakesTheFault : Obligations.FetchOutOfRangeTakesTheFault := by
  unfold Obligations.FetchOutOfRangeTakesTheFault
  intro s running hf
  exact ⟨_, step_of_fetch_error running (fetch_pc_of_not_fetchable hf), s.faultStep_takes s.pc⟩

/-- Settles O12: the fetched word is refused by the decoder, and the machine stops undefined. -/
theorem unassignedOpcodeStopsUndefined : Obligations.UnassignedOpcodeStopsUndefined := by
  unfold Obligations.UnassignedOpcodeStopsUndefined
  intro s w running hf hw unassigned
  have refused := decodeWord_eq_unassigned.2 (mnemonicOf_eq_none.2 unassigned)
  exact ⟨_, step_of_decode_error running (fetch_pc_of_fetchable hf hw) refused, s.undefinedStop_stops⟩

/-! ### Each instruction's handler, under one name -/

/-- The handler of an instruction, run on a copy of the state (R71, R72). -/
def handle (i : Instr) (st : State) : HandlerOutcome :=
  match i with
  | .and d s => handleAnd d s st
  | .or d s => handleOr d s st
  | .xor d s => handleXor d s st
  | .not d s => handleNot d s st
  | .add d s => handleAdd d s st
  | .adc d s => handleAdc d s st
  | .sub d s => handleSub d s st
  | .cmp d s => handleCmp d s st
  | .xchg d s => handleXchg d s st
  | .mult d s => handleMult d s st
  | .div d s => handleDiv d s st
  | .mov d s => handleMov d s st
  | .load d s m imm => handleLoad d s m imm st
  | .store d s m imm => handleStore d s m imm st
  | .push d => handlePush d st
  | .pop d => handlePop d st
  | .moviu d imm => handleMoviu d imm st
  | .addi d imm => handleAddi d imm st
  | .addiu d imm => handleAddiu d imm st
  | .cmpiu d imm => handleCmpiu d imm st
  | .shift d m imm => handleShift d m imm st
  | .jne imm => handleJne imm st
  | .jl imm => handleJl imm st
  | .jsr d imm => handleJsr d imm st
  | .jmp imm => handleJmp imm st
  | .jr d imm => handleJr d imm st
  | .sys imm => handleSys imm st
  | .swapcc d => handleSwapcc d st
  | .halt => handleHalt st

/-- An instruction is the end of a step around its handler and the registers R19 lists for it. -/
theorem exec_eq_handle (i : Instr) (s : State) : exec i s = endStep s i.mnemonic (listedWrites i) (handle i s) := by
  cases i <;> rfl

/-- Everything a handler that completes can do to the flags (10_state.md R20). -/
def FlagsAfter (i : Instr) (before after : Flags) : Prop :=
  after = before ∨
    (i.mnemonic = .add ∨ i.mnemonic = .adc) ∧ (∃ carry, after = before.withCarry carry) ∨
    (i.mnemonic = .cmp ∨ i.mnemonic = .cmpiu) ∧ (∃ x y, after = before.ofCompare x y) ∨
    i.mnemonic = .swapcc

/-- A handler that completes counts no step itself, and writes only the flags that are its own. -/
theorem handle_done {i : Instr} {s copy : State} (h : handle i s = .done copy) :
    copy.icount = s.icount ∧ FlagsAfter i s.flags copy.flags := by
  cases i with
  | div d b =>
    obtain ⟨v, u, rfl⟩ := handleDiv_done h
    exact ⟨rfl, .inl rfl⟩
  | shift d m imm =>
    obtain ⟨v, rfl⟩ := handleShift_done h
    exact ⟨rfl, .inl rfl⟩
  | load d b m imm =>
    obtain ⟨v, rfl⟩ := handleLoad_done h
    exact ⟨rfl, .inl rfl⟩
  | pop d =>
    obtain ⟨v, u, rfl⟩ := handlePop_done h
    exact ⟨rfl, .inl rfl⟩
  | store d b m imm =>
    obtain ⟨a, v, k, stored⟩ := handleStore_done h
    obtain ⟨-, -, flags, -, -, icount, -⟩ := State.memWrite_frame stored
    exact ⟨icount, .inl flags⟩
  | push d =>
    obtain ⟨mem, v, rfl⟩ := handlePush_done h
    exact ⟨rfl, .inl rfl⟩
  | sys imm =>
    obtain ⟨mem, v, u, rfl⟩ := handleSys_done h
    exact ⟨rfl, .inl rfl⟩
  | add d b =>
    cases h
    exact ⟨rfl, .inr (.inl ⟨.inl rfl, _, rfl⟩)⟩
  | adc d b =>
    cases h
    exact ⟨rfl, .inr (.inl ⟨.inr rfl, _, rfl⟩)⟩
  | cmp d b =>
    cases h
    exact ⟨rfl, .inr (.inr (.inl ⟨.inl rfl, _, _, rfl⟩))⟩
  | cmpiu d imm =>
    cases h
    exact ⟨rfl, .inr (.inr (.inl ⟨.inr rfl, _, _, rfl⟩))⟩
  | swapcc d =>
    cases h
    exact ⟨rfl, .inr (.inr (.inr rfl))⟩
  | _ =>
    cases h
    exact ⟨rfl, .inl rfl⟩

/-- Every instruction answers a next state. -/
theorem exec_next (i : Instr) (s : State) : ∃ t, exec i s = .next t := by
  rw [exec_eq_handle]
  exact endStep_next ..

/-- A running machine always has a next state. -/
theorem step_next {s : State} (running : s.run = .running) : ∃ t, step s = .next t := by
  cases hw : s.fetch s.pc with
  | error f => exact ⟨_, step_of_fetch_error running hw⟩
  | ok w =>
    cases hi : decodeWord s.config w with
    | error e => exact ⟨_, step_of_decode_error running hw hi⟩
    | ok i =>
      rw [step_of_decode_ok running hw hi]
      exact exec_next i s

/-- Settles O13: the guard answers a fault unless the machine runs, and a running machine has a next state. -/
theorem noStepUnlessRunning : Obligations.NoStepUnlessRunning := by
  unfold Obligations.NoStepUnlessRunning
  refine fun s => ⟨fun halted => ?_, fun undefined => ?_, step_next⟩
  · simp only [step, guardedStep, halted]
  · simp only [step, guardedStep, undefined]

/-! ### All or nothing -/

/-- What an instruction that completes leaves of the records: one step counted, `FAULT` kept, and the machine not
undefined if it was running. -/
theorem exec_completes_or_stops {i : Instr} {s t : State} (running : s.run = .running) (h : exec i s = .next t) :
    (t.icount = s.icount + 1 ∧ t.fault = s.fault ∧ (t.run = .running ∨ t.run = .halted)) ∨
      (∃ f, TakesFault s t f) ∨ StopsUndefined s t := by
  rcases exec_cases h with ⟨copy, frame, rfl⟩ | stopped
  · refine .inl ⟨by simp [frame.icount], by simp [frame.fault], ?_⟩
    have run : copy.run = if i = .halt then .halted else .running := running ▸ frame.run
    by_cases hi : i = .halt
    · exact .inr (by simp [run, hi])
    · exact .inl (by simp [run, hi])
  · exact .inr stopped

/-- Settles O15: the handler's copy is committed whole, or discarded. -/
theorem stepIsAllOrNothing : Obligations.StepIsAllOrNothing := by
  unfold Obligations.StepIsAllOrNothing
  refine ⟨exec_next, fun s t h => ?_⟩
  obtain ⟨running, fault | stop | ⟨w, i, -, -, run⟩⟩ := step_cases h
  · exact .inr (.inl fault)
  · exact .inr (.inr stop)
  · exact exec_completes_or_stops running run

end Sys2Proof.Machine
end

section
/-! PROOFS. The state only the host reads (40_engine.md R80), and the refetch loop (60_exceptions.md R119). -/

namespace Sys2Proof.Machine

/-! ### The state only the host reads -/

/-- The state without `FAULT`, `ICOUNT` and `OUT`, which no instruction reads. -/
def State.hostless (s : State) : State := { s with fault := none, icount := 0, out := [] }

/-- A handler's outcome without what only the host reads. -/
def HandlerOutcome.hostless : HandlerOutcome → HandlerOutcome
  | .done copy => .done copy.hostless
  | .memoryFault f => .memoryFault f
  | .undefined reason => .undefined reason

section
variable (s : State)

@[simp] theorem State.hostless_config : s.hostless.config = s.config := rfl
@[simp] theorem State.hostless_readReg (r : RegIdx) : s.hostless.readReg r = s.readReg r := rfl

theorem State.hostless_advance (m : Mnemonic) (writes : List RegIdx) (a : Word) :
    (s.hostless.advance m writes a).hostless = (s.advance m writes a).hostless := by
  cases hm : isControl m with
  | true => rw [State.advance_control _ _ _ hm, State.advance_control _ _ _ hm]; rfl
  | false =>
    cases hr : s.config.r7WriteAdvance with
    | true => simp only [State.advance, hm, State.hostless_config, hr]; rfl
    | false => by_cases hw : pcReg ∈ writes <;> simp only [State.advance, hm, State.hostless_config, hr, hw] <;> rfl

end

/-- No handler reads `FAULT`, `ICOUNT` or `OUT`: those that branch do so on the operands, on the parameters, or on
whether an access is in range. -/
theorem handle_hostless (i : Instr) (s : State) : (handle i s.hostless).hostless = (handle i s).hostless := by
  cases i with
  | div d b =>
    simp only [handle]
    cases h : divUndefined (s.readReg d) (s.readReg b) with
    | true => rw [handleDiv_undefined h, handleDiv_undefined (st := s.hostless) h]
    | false =>
      rw [handleDiv_defined h, handleDiv_defined (st := s.hostless) h]
      rfl
  | shift d m imm =>
    simp only [handle, handleShift, State.hostless_readReg]
    cases shifted m (s.readReg d) (shiftAmount imm) <;> rfl
  | load d b m imm =>
    simp only [handle]
    cases hm : accessSize m with
    | none => rw [handleLoad_reserved hm, handleLoad_reserved hm]
    | some n =>
      by_cases h : (s.effectiveAddress b imm).toNat + n.bytes ≤ s.config.memSize
      · rw [handleLoad_inRange hm h, handleLoad_inRange (st := s.hostless) hm h]
        rfl
      · rw [handleLoad_outOfRange hm h, handleLoad_outOfRange (st := s.hostless) hm h]
        rfl
  | pop d =>
    simp only [handle]
    by_cases h : (popTarget s.config.stackMode s.sp).toNat + 4 ≤ s.config.memSize
    · rw [handlePop_inRange h, handlePop_inRange (st := s.hostless) h]
      rfl
    · rw [handlePop_outOfRange h, handlePop_outOfRange (st := s.hostless) h]
      rfl
  | store d b m imm =>
    simp only [handle]
    cases hm : accessSize m with
    | none => rw [handleStore_reserved hm, handleStore_reserved hm]
    | some n =>
      by_cases hc : n = .byte ∧ s.effectiveAddress b imm = s.config.consoleAddr
      · rw [handleStore_console hm hc, handleStore_console (st := s.hostless) hm hc]
        rfl
      · by_cases h : (s.effectiveAddress b imm).toNat + n.bytes ≤ s.config.memSize
        · rw [handleStore_inRange hm hc h, handleStore_inRange (st := s.hostless) hm hc h]
          rfl
        · rw [handleStore_outOfRange hm hc h, handleStore_outOfRange (st := s.hostless) hm hc h]
          rfl
  | push d =>
    simp only [handle]
    by_cases h : (pushTarget s.config.stackMode s.sp).toNat + 4 ≤ s.config.memSize
    · rw [handlePush_inRange h, handlePush_inRange (st := s.hostless) h]
      rfl
    · rw [handlePush_outOfRange h, handlePush_outOfRange (st := s.hostless) h]
      rfl
  | sys imm =>
    simp only [handle]
    by_cases h : (pushTarget s.config.stackMode s.sp).toNat + 4 ≤ s.config.memSize
    · rw [handleSys_inRange h, handleSys_inRange (st := s.hostless) h]
      rfl
    · rw [handleSys_outOfRange h, handleSys_outOfRange (st := s.hostless) h]
      rfl
  | _ => rfl

/-- So two states alike but for what only the host reads have handlers that end alike. -/
theorem handle_congr {s t : State} (h : s.hostless = t.hostless) (i : Instr) :
    (handle i s).hostless = (handle i t).hostless := by
  rw [← handle_hostless, h, handle_hostless]

/-- A part of the state that `hostless` keeps is the same in two states alike. -/
theorem part_eq_of_hostless {α : Type} {s t : State} (h : s.hostless = t.hostless) (part : State → α)
    (keeps : ∀ c, part c.hostless = part c := by intro _; rfl) : part s = part t := by
  rw [← keeps s, h, keeps t]

theorem faultStep_hostless (s : State) (f : Word) :
    (s.hostless.faultStep f).hostless = (s.faultStep f).hostless := by
  cases h : s.config.haltOnFault <;> simp only [State.faultStep, State.hostless_config, h] <;> rfl

/-- The end of a step keeps states alike. -/
theorem endStep_congr {s s' t : State} {m : Mnemonic} {writes : List RegIdx} {o o' : HandlerOutcome}
    (hs : s.hostless = s'.hostless) (ho : o.hostless = o'.hostless) (h : endStep s m writes o = .next t) :
    ∃ t', endStep s' m writes o' = .next t' ∧ t.hostless = t'.hostless := by
  have pc : s.pc = s'.pc := part_eq_of_hostless hs State.pc
  cases o with
  | done copy =>
    cases o' with
    | done copy' =>
      cases h
      refine ⟨_, rfl, ?_⟩
      have copies : copy.hostless = copy'.hostless := by simpa [HandlerOutcome.hostless] using ho
      show (copy.advance m writes s.pc).hostless = (copy'.advance m writes s'.pc).hostless
      rw [← State.hostless_advance, copies, State.hostless_advance, pc]
    | memoryFault f => cases ho
    | undefined r => cases ho
  | memoryFault f =>
    cases o' with
    | memoryFault f' =>
      cases h
      cases ho
      exact ⟨_, rfl, by rw [← faultStep_hostless, hs, faultStep_hostless]⟩
    | done copy => cases ho
    | undefined r => cases ho
  | undefined r =>
    cases o' with
    | undefined r' =>
      cases h
      exact ⟨_, rfl, congrArg (fun c : State => c.undefinedStop) hs⟩
    | done copy => cases ho
    | memoryFault f => cases ho

/-- What a step begins with is the same in states alike. -/
theorem begin_eq_of_hostless {s s' : State} (hs : s.hostless = s'.hostless) :
    s'.run = s.run ∧ s'.fetch s'.pc = s.fetch s.pc ∧ s'.config = s.config :=
  ⟨part_eq_of_hostless hs.symm State.run, part_eq_of_hostless hs.symm fun c => c.fetch c.pc,
    part_eq_of_hostless hs.symm State.config⟩

/-- States alike but for what only the host reads step to such states. -/
theorem step_congr {s s' t : State} (hs : s.hostless = s'.hostless) (h : step s = .next t) :
    ∃ t', step s' = .next t' ∧ t.hostless = t'.hostless := by
  obtain ⟨sameRun, sameFetch, sameConfig⟩ := begin_eq_of_hostless hs
  obtain ⟨running, -⟩ := step_cases h
  have running' : s'.run = .running := sameRun.trans running
  cases hw : s.fetch s.pc with
  | error f =>
    rw [step_of_fetch_error running hw] at h
    cases h
    exact ⟨_, step_of_fetch_error running' (sameFetch.trans hw), by
      rw [← faultStep_hostless, hs, faultStep_hostless]⟩
  | ok w =>
    cases hi : decodeWord s.config w with
    | error e =>
      rw [step_of_decode_error running hw hi] at h
      cases h
      exact ⟨_, step_of_decode_error running' (sameFetch.trans hw) (sameConfig ▸ hi),
        congrArg State.undefinedStop hs⟩
    | ok i =>
      rw [step_of_decode_ok running hw hi, exec_eq_handle] at h
      rw [step_of_decode_ok running' (sameFetch.trans hw) (sameConfig ▸ hi), exec_eq_handle]
      exact endStep_congr hs (handle_congr hs i) h

/-- Settles O27: the two states are alike but for what only the host reads. -/
theorem hostOnlyStateIsNotRead : Obligations.HostOnlyStateIsNotRead := by
  unfold Obligations.HostOnlyStateIsNotRead
  intro s t f n o h
  obtain ⟨t', ht, same⟩ := step_congr (s := s) (s' := { s with fault := f, icount := n, out := o }) rfl h
  simp only [State.hostless, State.mk.injEq] at same
  obtain ⟨config, regs, flags, run, -, -, -, dmem, imem⟩ := same
  exact ⟨t', ht, config.symm, regs.symm, flags.symm, run.symm, dmem.symm, imem.symm⟩

/-! ### The refetch loop -/

/-- States alike raise the same memory fault. -/
theorem handle_memoryFault_congr {i : Instr} {s s' : State} {f : Word} (hs : s.hostless = s'.hostless)
    (h : handle i s = .memoryFault f) : handle i s' = .memoryFault f := by
  have same := handle_congr hs i
  rw [h] at same
  cases h' : handle i s' with
  | memoryFault f' =>
    rw [h'] at same
    cases same
    rfl
  | done copy => rw [h'] at same; cases same
  | undefined r => rw [h'] at same; cases same

/-- A step that counts nothing and leaves the machine running took a memory fault, raised by the fetch or by the
handler, and any state alike but for what only the host reads takes the same. -/
theorem step_faults {s t : State} (h : step s = .next t) (uncounted : t.icount = s.icount)
    (running : t.run = .running) :
    ∃ f, TakesFault s t f ∧ ∀ s' : State, s.hostless = s'.hostless → step s' = .next (s'.faultStep f) := by
  obtain ⟨wasRunning, -⟩ := step_cases h
  cases hw : s.fetch s.pc with
  | error f =>
    rw [step_of_fetch_error wasRunning hw] at h
    cases h
    refine ⟨f, s.faultStep_takes f, fun s' hs => ?_⟩
    obtain ⟨sameRun, sameFetch, -⟩ := begin_eq_of_hostless hs
    exact step_of_fetch_error (sameRun.trans wasRunning) (sameFetch.trans hw)
  | ok w =>
    cases hi : decodeWord s.config w with
    | error e =>
      rw [step_of_decode_error wasRunning hw hi] at h
      cases h
      cases running
    | ok i =>
      rw [step_of_decode_ok wasRunning hw hi, exec_eq_handle] at h
      rcases endStep_cases h with ⟨copy, done, rfl⟩ | ⟨f, raised, taken⟩ | ⟨r, -, rfl⟩
      · obtain ⟨icount, -⟩ := handle_done done
        simp [icount] at uncounted
      · refine ⟨f, taken, fun s' hs => ?_⟩
        obtain ⟨sameRun, sameFetch, sameConfig⟩ := begin_eq_of_hostless hs
        rw [step_of_decode_ok (sameRun.trans wasRunning) (sameFetch.trans hw) (sameConfig ▸ hi), exec_eq_handle,
          handle_memoryFault_congr hs raised]
        rfl
      · cases running

/-- Settles O14: the fault changes `FAULT` alone, so it is taken again and recorded as it stands. -/
theorem faultRepeatsForever : Obligations.FaultRepeatsForever := by
  unfold Obligations.FaultRepeatsForever
  intro s t goesOn h uncounted running
  obtain ⟨f, taken, again⟩ := step_faults h uncounted running
  have recorded : t = s.setFault f := by
    rw [taken, goesOn]
    rfl
  refine ⟨⟨f, taken⟩, ?_⟩
  rw [again t (by rw [recorded]; rfl), recorded, State.faultStep, State.setFault_config, goesOn]
  rfl

end Sys2Proof.Machine
end

section
/-! PROOFS. What no step changes, and the invariant every step keeps (10_state.md, 20_memory.md, 40_engine.md). -/

namespace Sys2Proof.Machine

/-! ### Parameters and `IMEM` -/

/-- No instruction changes a parameter or a word of `IMEM`. -/
theorem exec_config_imem {i : Instr} {s t : State} (h : exec i s = .next t) :
    t.config = s.config ∧ t.imem = s.imem := by
  rcases exec_cases h with ⟨copy, frame, rfl⟩ | ⟨f, rfl⟩ | rfl
  · simp [frame.config, frame.imem]
  · exact ⟨rfl, rfl⟩
  · exact ⟨rfl, rfl⟩

/-- Settles O20: a step that runs no instruction writes `FAULT` and `RUN` at most. -/
theorem parametersAndProgramArrayNeverChange : Obligations.ParametersAndProgramArrayNeverChange := by
  unfold Obligations.ParametersAndProgramArrayNeverChange
  intro s t h
  obtain ⟨-, ⟨f, rfl⟩ | rfl | ⟨w, i, -, -, run⟩⟩ := step_cases h
  · exact ⟨rfl, rfl⟩
  · exact ⟨rfl, rfl⟩
  · exact exec_config_imem run

/-! ### The invariant -/

/-- A step leaves `DMEM` alone or writes bytes of it that lie within `MEM_SIZE`. -/
theorem step_dmem {s t : State} (h : step s = .next t) :
    t.dmem = s.dmem ∨
      ∃ (a n : Nat) (v : Word), a + n ≤ s.config.memSize ∧ t.dmem = s.dmem.writeBytes a (bytesOf n v) := by
  obtain ⟨-, ⟨f, rfl⟩ | rfl | ⟨w, i, -, -, run⟩⟩ := step_cases h
  · exact .inl rfl
  · exact .inl rfl
  · rcases exec_memory run with ⟨same, -⟩ | ⟨d, b, imm, -, -, same, -⟩ | ⟨-, -, stored⟩
    · exact .inl same
    · exact .inl same
    · exact .inr stored

/-- Bytes written within `MEM_SIZE` keep `DMEM` canonical and inside its bounds. -/
theorem writeBytes_keeps {m : Memory} {size a n : Nat} (v : Word) (h : a + n ≤ size)
    (canonical : m.wf = true) (inside : ∀ cell ∈ m, cell.1 < size) :
    (m.writeBytes a (bytesOf n v)).wf = true ∧ ∀ cell ∈ m.writeBytes a (bytesOf n v), cell.1 < size := by
  refine ⟨Memory.wf_writeBytes canonical a _, fun cell hc => ?_⟩
  rcases Memory.key_of_mem_writeBytes hc with old | ⟨-, new⟩
  · exact inside cell old
  · rw [length_bytesOf] at new
    omega

/-- Settles O16: parameters and `IMEM` stand, and `DMEM` stands or has bytes written within its bounds. -/
theorem everyStepKeepsTheInvariant : Obligations.EveryStepKeepsTheInvariant := by
  unfold Obligations.EveryStepKeepsTheInvariant
  intro s t inv h
  obtain ⟨config, imem⟩ := parametersAndProgramArrayNeverChange s t h
  have dmem : t.dmem.wf = true ∧ ∀ cell ∈ t.dmem, cell.1 < s.config.memSize := by
    rcases step_dmem h with same | ⟨a, n, v, inside, written⟩
    · rw [same]
      exact ⟨inv.dmemCanonical, inv.dmemInRange⟩
    · rw [written]
      exact writeBytes_keeps v inside inv.dmemCanonical inv.dmemInRange
  exact ⟨config ▸ inv.config, dmem.1, config ▸ dmem.2, imem ▸ inv.imemCanonical, config ▸ imem ▸ inv.imemInRange,
    config ▸ imem ▸ inv.imemAbsent⟩

end Sys2Proof.Machine
end

section
/-! PROOFS. The statements of 70_reset_and_hazards.md: reset and image load (R132 to R134). -/

namespace Sys2Proof.Machine

/-! ### Image load -/

/-- An image of whole words that fits: the condition of R134. -/
def ImageFits (c : Config) (image : List Byte) : Prop :=
  image.length % 4 = 0 ∧ image.length ≤ c.memSize ∧ (c.harvard = true → image.length ≤ 4 * c.imemWords)

/-- The state an accepted image makes: reset, the image in `DMEM` and, with `HARVARD`, its words in `IMEM`. -/
def loadedState (c : Config) (image : List Byte) : State :=
  ((State.resetWith c).setDmem (sparseFrom 0 image)).setImem (if c.harvard then sparseFrom 0 (imageWords image) else [])

/-- An image that fits is loaded. -/
theorem loadImage_of_fits {c : Config} {image : List Byte} (fits : ImageFits c image) :
    loadImage c image = .ok (loadedState c image) := by
  obtain ⟨whole, inMemory, inArray⟩ := fits
  have inArray' : ¬(c.harvard = true ∧ 4 * c.imemWords < image.length) := fun ⟨hh, outside⟩ =>
    absurd (inArray hh) (by omega)
  rw [loadImage, if_neg (by omega), if_neg (by omega), if_neg inArray', loadedState]

/-- An image that is loaded fits: each refusal is one part of the condition. -/
theorem fits_of_loadImage {c : Config} {image : List Byte} {s : State} (h : loadImage c image = .ok s) :
    ImageFits c image := by
  unfold loadImage at h
  split_ifs at h with partialWord tooLong tooManyWords
  all_goals exact ⟨by omega, by omega, fun hh => by by_contra outside; exact tooManyWords ⟨hh, by omega⟩⟩

/-- Everything an image load can do. -/
theorem loadImage_eq_ok_iff {c : Config} {image : List Byte} {s : State} :
    loadImage c image = .ok s ↔ ImageFits c image ∧ s = loadedState c image := by
  refine ⟨fun h => ⟨fits_of_loadImage h, ?_⟩, fun ⟨fits, e⟩ => e ▸ loadImage_of_fits fits⟩
  exact Except.ok.inj (h.symm.trans (loadImage_of_fits (fits_of_loadImage h)))

/-- The words of an image are a quarter as many as its bytes. -/
theorem length_imageWords : ∀ image : List Byte, (imageWords image).length = image.length / 4
  | [] | [_] | [_, _] | [_, _, _] => by simp [imageWords]
  | b0 :: b1 :: b2 :: b3 :: rest => by
    simp only [imageWords, List.length_cons, length_imageWords rest]
    omega

/-- The loaded state meets the invariant. -/
theorem inv_loadedState {c : Config} (hc : c.wf = true) {image : List Byte} (fits : ImageFits c image) :
    (loadedState c image).Inv := by
  obtain ⟨whole, inMemory, inArray⟩ := fits
  obtain ⟨dmem, cells⟩ := sparseFrom_spec image 0
  obtain ⟨imem, words⟩ := sparseFrom_spec (imageWords image) 0
  rw [length_imageWords] at words
  refine ⟨hc, dmem, fun cell h => ?_, ?_, ?_, fun unified => ?_⟩
  · show cell.1 < c.memSize
    have := cells cell h
    omega
  · cases hh : c.harvard
    · simp [loadedState, hh, sparseWf]
    · simp [loadedState, hh, imem]
  · cases hh : c.harvard
    · simp [loadedState, hh]
    · intro cell h
      show cell.1 < c.imemWords
      have := words cell (by simpa [loadedState, hh] using h)
      have := inArray hh
      omega
  · have unified' : c.harvard = false := unified
    simp [loadedState, unified']

/-- Settles O17: reset is the load of no image, and the load lays the image out in canonical form. -/
theorem resetAndLoadMeetTheInvariant : Obligations.ResetAndLoadMeetTheInvariant := by
  unfold Obligations.ResetAndLoadMeetTheInvariant
  refine ⟨inv_loadedState (c := referenceConfig) (image := []) (by decide) ⟨rfl, Nat.zero_le _, fun _ => Nat.zero_le _⟩,
    fun c image s hc h => ?_⟩
  obtain ⟨fits, rfl⟩ := loadImage_eq_ok_iff.1 h
  exact inv_loadedState hc fits

/-- Settles O18: the fields of reset are written out, and every register is a copy of 0. -/
theorem resetValues : Obligations.ResetValues := by
  unfold Obligations.ResetValues
  refine ⟨fun r => ?_, rfl, rfl, rfl, rfl, rfl, fun _ => rfl, rfl⟩
  simp [State.readReg, State.reset, State.resetWith, resetRegisters]

/-- Reading an image laid out from address 0. -/
theorem sparseRead_from_zero {w : Nat} (vs : List (BitVec w)) (a : Nat) :
    sparseRead (sparseFrom 0 vs) a = vs.getD a 0#w := by
  rw [sparseRead_from, List.getD_eq_getElem?_getD]
  by_cases h : a < vs.length <;> simp [h, unlisted]

/-- A word of the image is its four bytes, the first the least significant. -/
theorem getD_imageWords : ∀ (image : List Byte) (k : Nat), 4 * k + 4 ≤ image.length →
    (imageWords image).getD k 0#32 = littleEndian [image.getD (4 * k) 0#8, image.getD (4 * k + 1) 0#8,
      image.getD (4 * k + 2) 0#8, image.getD (4 * k + 3) 0#8] := by
  intro image k
  induction k generalizing image with
  | zero =>
    intro h
    match image with
    | b0 :: b1 :: b2 :: b3 :: rest => rfl
  | succ k ih =>
    intro h
    match image with
    | b0 :: b1 :: b2 :: b3 :: rest =>
      have inside : 4 * k + 4 ≤ rest.length := by
        simp only [List.length_cons] at h
        omega
      simpa [imageWords, Nat.mul_add] using ih rest inside

/-- A value put above `k` bits is the value shifted up with those bits put in. -/
theorem setWidth_append_eq {n k : Nat} (x : BitVec n) (y : BitVec k) :
    (x ++ y).setWidth 32 = y.setWidth 32 ||| (x.setWidth 32 <<< k) := by
  ext j hj
  simp only [BitVec.getElem_setWidth, BitVec.getElem_or, BitVec.getElem_shiftLeft, BitVec.getLsbD_append]
  by_cases low : j < k
  · simp [low]
  · simp [low, BitVec.getLsbD_of_ge y j (by omega)]

/-- Four bytes, the first the least significant, are their concatenation. -/
theorem littleEndian_four (b0 b1 b2 b3 : Byte) : littleEndian [b0, b1, b2, b3] = b3 ++ b2 ++ b1 ++ b0 := by
  have value : (b3 ++ b2 ++ b1 ++ b0).setWidth 32 = littleEndian [b0, b1, b2, b3] := by
    simp only [littleEndian, setWidth_append_eq, BitVec.zero_shiftLeft, BitVec.or_zero]
  exact value.symm.trans (BitVec.setWidth_eq _)

/-- Settles O19: acceptance is `ImageFits`, and the word at `4k` is read from `DMEM` or from the copy in `IMEM`. -/
theorem loadedImageIsFetched : Obligations.LoadedImageIsFetched := by
  unfold Obligations.LoadedImageIsFetched
  intro c image hc
  refine ⟨⟨fun ⟨s, h⟩ => fits_of_loadImage h, fun fits => ⟨_, loadImage_of_fits fits⟩⟩, fun s h => ?_⟩
  obtain ⟨fits, rfl⟩ := loadImage_eq_ok_iff.1 h
  refine ⟨fun a => sparseRead_from_zero image a, fun k hk => ?_⟩
  obtain ⟨-, inMemory, inArray⟩ := fits
  obtain ⟨e, -, small, size⟩ := Config.memSize_of_wf hc
  have bound : c.memSize ≤ 2 ^ 31 := size ▸ Nat.pow_le_pow_right (by decide) small
  have address : (BitVec.ofNat 32 (4 * k)).toNat = 4 * k := Nat.mod_eq_of_lt (by omega)
  rw [← littleEndian_four]
  cases hh : c.harvard with
  | true =>
    have fetchable : (loadedState c image).canFetch (BitVec.ofNat 32 (4 * k)) = true := by
      have := inArray hh
      have inside : 4 * k / 4 < c.imemWords := by omega
      simpa [State.canFetch, loadedState, State.resetWith, hh, address] using inside
    rw [State.fetch_eq, if_pos fetchable, ← getD_imageWords image k hk, ← sparseRead_from_zero]
    simp [State.fetchedWord, loadedState, State.resetWith, hh, address]
  | false =>
    have fetchable : (loadedState c image).canFetch (BitVec.ofNat 32 (4 * k)) = true := by
      have inside : 4 * k + 4 ≤ c.memSize := by omega
      simpa [State.canFetch, inRange, loadedState, State.resetWith, hh, address] using inside
    rw [State.fetch_eq, if_pos fetchable]
    simp [State.fetchedWord, loadedState, State.resetWith, hh, address, Memory.readBytes, Memory.read,
      sparseRead_from_zero]

end Sys2Proof.Machine
end

section
/-! PROOFS. The statements of 10_state.md and 20_memory.md about every instruction: what it can change. -/

namespace Sys2Proof.Machine

/-! ### Memory, the stream, flags and registers -/

/-- Settles O21: of what an instruction can do to memory and the stream, only the console store changes the stream. -/
theorem onlyConsoleStoresReachTheStream : Obligations.OnlyConsoleStoresReachTheStream := by
  unfold Obligations.OnlyConsoleStoresReachTheStream
  intro i s t h changed
  rcases exec_memory h with ⟨-, same⟩ | ⟨d, b, imm, rfl, address, dmem, out⟩ | ⟨-, same, -⟩
  · exact absurd same changed
  · rw [State.effectiveAddress_eq] at address
    exact ⟨d, b, imm, rfl, address, out, fun a => by rw [State.byte, dmem, State.byte]⟩
  · exact absurd same changed

/-- Settles O23: of the same cases, only STORE, PUSH and SYS write bytes. -/
theorem memoryChangesOnlyByStores : Obligations.MemoryChangesOnlyByStores := by
  unfold Obligations.MemoryChangesOnlyByStores
  intro i s t a h changed
  rcases exec_memory h with ⟨same, -⟩ | ⟨d, b, imm, rfl, -, same, -⟩ | ⟨stores, -⟩
  · exact absurd (by rw [State.byte, same, State.byte]) changed
  · exact .inl rfl
  · exact stores

/-- The flags after an instruction are those its handler left, or, when it stops, those before. -/
theorem exec_flags {i : Instr} {s t : State} (h : exec i s = .next t) : FlagsAfter i s.flags t.flags := by
  rw [exec_eq_handle] at h
  rcases endStep_cases h with ⟨copy, done, rfl⟩ | ⟨f, -, rfl⟩ | ⟨r, -, rfl⟩
  · simpa using (handle_done done).2
  · exact .inl rfl
  · exact .inl rfl

/-- Settles O22: ADD and ADC write `C` alone, CMP and CMPIU the other three, and SWAPCC all. -/
theorem flagsChangeOnlyByTheirWriters : Obligations.FlagsChangeOnlyByTheirWriters := by
  unfold Obligations.FlagsChangeOnlyByTheirWriters
  intro i s t h
  rcases exec_flags h with same | ⟨adds, carry, only⟩ | ⟨compares, x, y, only⟩ | swaps
  · simp [same]
  · refine ⟨fun _ => by tauto, fun changed => ?_⟩
    simp [only, Flags.withCarry] at changed
  · refine ⟨fun changed => ?_, fun _ => by tauto⟩
    simp [only, Flags.ofCompare] at changed
  · exact ⟨fun _ => .inr (.inr swaps), fun _ => .inr (.inr swaps)⟩

/-- Settles O24: the handler keeps to its list, and the advance writes the PC alone. -/
theorem onlyListedRegistersChange : Obligations.OnlyListedRegistersChange := by
  unfold Obligations.OnlyListedRegistersChange
  intro i s t r h notPc unlisted
  rcases exec_cases h with ⟨copy, frame, rfl⟩ | ⟨f, rfl⟩ | rfl
  · rw [State.countStep_readReg, State.advance_readReg _ _ _ _ notPc, frame.regs r unlisted]
  · rfl
  · rfl

/-! ### Stores and fetches (R45) -/

/-- A fetch in Harvard mode reads `IMEM` and the parameters alone. -/
theorem fetch_eq_of_harvard {s t : State} (hh : s.config.harvard = true) (config : t.config = s.config)
    (imem : t.imem = s.imem) (a : Word) : t.fetch a = s.fetch a := by
  simp only [State.fetch, State.canFetch, State.fetchedWord, config, imem, hh, if_true]

/-- A fetch in unified mode reads the word whose bytes stand in `DMEM`. -/
theorem fetch_eq_of_writeBytes {t : State} {m : Memory} {a v : Word} (unified : t.config.harvard = false)
    (inside : a.toNat + 4 ≤ t.config.memSize) (written : t.dmem = m.writeBytes a.toNat (bytesOf 4 v)) :
    t.fetch a = .ok v := by
  have fetchable : t.canFetch a = true := by simpa [State.canFetch, inRange, unified] using inside
  have bytes : t.dmem.readBytes a.toNat 4 = bytesOf 4 v := by
    rw [written]
    exact Memory.readBytes_writeBytes m a.toNat (bytesOf 4 v)
  rw [State.fetch_eq, if_pos fetchable, State.fetchedWord, unified, if_neg Bool.false_ne_true, bytes,
    littleEndian_bytesOf_four]

/-- Settles O26: a word store writes the bytes a unified fetch reads, and no instruction writes `IMEM`. -/
theorem storesReachFetchOnlyInUnifiedMode : Obligations.StoresReachFetchOnlyInUnifiedMode := by
  unfold Obligations.StoresReachFetchOnlyInUnifiedMode
  refine ⟨fun d b imm st unified inside => ?_, fun i s t a hh h => ?_⟩
  · rw [← State.effectiveAddress_eq] at inside ⊢
    rw [exec_store, handleStore_inRange (n := .word) (by decide) (by simp) inside]
    exact ⟨_, rfl, fetch_eq_of_writeBytes (m := st.dmem) (by simpa using unified) (by simpa using inside)
      (by simp [Size.bytes])⟩
  · obtain ⟨config, imem⟩ := exec_config_imem h
    exact fetch_eq_of_harvard hh config imem a

end Sys2Proof.Machine
end

section
/-! PROOFS. The statements of 41_register_alu.md: each by the word of its layout, its handler's result and the end of a
step whose handler wrote one register, two, or the flags. -/

namespace Sys2Proof.Machine

/-! ### The word of two registers -/

/-- A word of layout L6 with both registers in place, whatever its other bits, decodes to the instruction of the two
(30_encoding.md R49, R51). -/
theorem wordDecodes_l6_registers {m : Mnemonic} {i : RegIdx → RegIdx → Instr} (c : Config) (hl : layoutOf c m = .l6)
    (hi : ∀ u, instrOf m u = i (readRole u.d) (readRole u.s)) (d s : RegIdx) (x : BitVec 21) :
    WordDecodes c m (fieldAt d 24 ||| fieldAt s 21 ||| fieldAt x 0) (i d s) := by
  have word := wordDecodes_two_registers (c := c) (m := m) (rest := fieldAt d 24 ||| fieldAt s 21 ||| fieldAt x 0)
    (fun j hj => by simp (disch := omega) [getLsbD_fieldAt_of_le]) hl hi
  have fields : fieldA (fieldAt d 24 ||| fieldAt s 21 ||| fieldAt x 0) = d ∧
      fieldB (fieldAt d 24 ||| fieldAt s 21 ||| fieldAt x 0) = s := by
    constructor <;> simp [fieldA, fieldB, BitVec.extractLsb'_or, extract_fieldAt_of_disjoint x]
  rwa [fields.1, fields.2] at word

/-! ### The end of a step whose handler wrote registers or flags -/

section
variable (st : State) {m : Mnemonic} (hm : isControl m = false)
include hm

/-- A handler that writes the flags and one register. -/
theorem endStep_setFlags_writeReg (f : Flags) (d : RegIdx) (v : Word) :
    ∃ t, endStep st m [d] (.done ((st.setFlags f).writeReg d v)) = .next t ∧ Completes st t f ∧ KeepsMemory st t ∧
      WritesOne st t d v :=
  ⟨_, rfl, completes_of_done rfl rfl rfl rfl rfl, keepsMemory_of_done rfl rfl,
    writesOne_of_done hm d v rfl fun _ => rfl⟩

/-- A handler that writes one register. -/
theorem endStep_writeReg (d : RegIdx) (v : Word) :
    ∃ t, endStep st m [d] (.done (st.writeReg d v)) = .next t ∧ Completes st t st.flags ∧ KeepsMemory st t ∧
      WritesOne st t d v :=
  endStep_setFlags_writeReg st hm st.flags d v

/-- A handler that writes two registers, one after the other. -/
theorem endStep_writeReg_twice (d : RegIdx) (v : Word) (e : RegIdx) (u : Word) :
    ∃ t, endStep st m [d, e] (.done ((st.writeReg d v).writeReg e u)) = .next t ∧ Completes st t st.flags ∧
      KeepsMemory st t ∧ WritesTwo st t d v e u :=
  ⟨_, rfl, completes_of_done rfl rfl rfl rfl rfl, keepsMemory_of_done rfl rfl, writesTwo_of_done hm d v e u⟩

/-- A handler that writes the flags alone. -/
theorem endStep_setFlags (f : Flags) :
    ∃ t, endStep st m [] (.done (st.setFlags f)) = .next t ∧ Completes st t f ∧ KeepsMemory st t ∧
      WritesOnlyPc st t (st.pc + 4#32) :=
  ⟨_, rfl, completes_of_done rfl rfl rfl rfl rfl, keepsMemory_of_done rfl rfl,
    writesOnlyPc_of_done hm (by simp) rfl fun _ => rfl⟩

end

/-! ### The results -/

/-- Settles O28: a word of two registers, and a handler that writes one register (R83). -/
theorem andWritesTheConjunction : Obligations.AndWritesTheConjunction := by
  unfold Obligations.AndWritesTheConjunction
  intro d s x st
  exact ⟨wordDecodes_l6_registers _ rfl (fun _ => rfl) d s x, endStep_writeReg st (m := .and) rfl d _⟩

/-- Settles O29: each is a handler that writes one register, as AND's is (R84, R85, R89). -/
theorem orXorSubWriteTheirResults : Obligations.OrXorSubWriteTheirResults := by
  unfold Obligations.OrXorSubWriteTheirResults
  intro d s x st
  exact ⟨⟨wordDecodes_l6_registers _ rfl (fun _ => rfl) d s x, endStep_writeReg st (m := .or) rfl d _⟩,
    ⟨wordDecodes_l6_registers _ rfl (fun _ => rfl) d s x, endStep_writeReg st (m := .xor) rfl d _⟩,
    ⟨wordDecodes_l6_registers _ rfl (fun _ => rfl) d s x, endStep_writeReg st (m := .sub) rfl d _⟩⟩

/-- Settles O30: a handler that writes one register (R86). -/
theorem notWritesTheComplement : Obligations.NotWritesTheComplement := by
  unfold Obligations.NotWritesTheComplement
  intro d s x st
  exact ⟨wordDecodes_l6_registers _ rfl (fun _ => rfl) d s x, endStep_writeReg st (m := .not) rfl d _⟩

/-- Settles O37: a handler that writes one register (R94). -/
theorem movCopiesTheSource : Obligations.MovCopiesTheSource := by
  unfold Obligations.MovCopiesTheSource
  intro d s x st
  exact ⟨wordDecodes_l6_registers _ rfl (fun _ => rfl) d s x, endStep_writeReg st (m := .mov) rfl d _⟩

/-- Settles O33: the handler writes `x[d]`, then `x[s]`, with the values read before (R91). -/
theorem xchgExchanges : Obligations.XchgExchanges := by
  unfold Obligations.XchgExchanges
  intro d s x st
  exact ⟨wordDecodes_l6_registers _ rfl (fun _ => rfl) d s x, endStep_writeReg_twice st (m := .xchg) rfl d _ s _⟩

/-- The exact sum cut to 32 bits is the wrapped sum (R87, R88). -/
theorem ofNat_exactSum (x y : Word) (carryIn : Bool) :
    BitVec.ofNat 32 (exactSum x y carryIn) = x + y + (if carryIn then 1#32 else 0#32) := by
  apply BitVec.eq_of_toNat_eq
  cases carryIn <;> simp [exactSum, BitVec.toNat_add]

/-- ADD and ADC differ in the carry in. -/
theorem endStep_sumHandler (st : State) {m : Mnemonic} (hm : isControl m = false) (d s : RegIdx) (carryIn : Bool) :
    ∃ t, endStep st m [d] (sumHandler d s carryIn st) = .next t ∧
      Completes st t { st.flags with
        c := decide (2 ^ 32 ≤ (st.readReg d).toNat + (st.readReg s).toNat + (if carryIn then 1 else 0)) } ∧
      KeepsMemory st t ∧ WritesOne st t d (st.readReg d + st.readReg s + (if carryIn then 1#32 else 0#32)) := by
  have flags : st.flags.withCarry (carryOut (st.readReg d) (st.readReg s) carryIn) = { st.flags with
      c := decide (2 ^ 32 ≤ (st.readReg d).toNat + (st.readReg s).toNat + (if carryIn then 1 else 0)) } := by
    cases carryIn <;> rfl
  rw [← flags, ← ofNat_exactSum]
  exact endStep_setFlags_writeReg st hm _ d _

/-- Settles O31: the two share their handler, with carry in 0 and `C`. -/
theorem addAndAdcSumWithCarryOut : Obligations.AddAndAdcSumWithCarryOut := by
  unfold Obligations.AddAndAdcSumWithCarryOut
  intro d s x st
  refine ⟨⟨wordDecodes_l6_registers _ rfl (fun _ => rfl) d s x, ?_⟩,
    ⟨wordDecodes_l6_registers _ rfl (fun _ => rfl) d s x, endStep_sumHandler st (m := .adc) rfl d s st.flags.c⟩⟩
  have ended := endStep_sumHandler st (m := .add) rfl d s false
  rw [exec_add, handleAdd]
  simpa using ended

/-- CMP's flags are the signed comparisons of the two words (R90). -/
theorem compareSigned_eq (f : Flags) (x y : Word) : f.compareSigned x y = ⟨x.slt y, x == y, y.slt x, f.c⟩ := by
  simp only [Flags.compareSigned, Flags.ofCompare, BitVec.slt, BitVec.toInt_inj, beq_eq_decide]

/-- Settles O32: the handler writes the flags of the signed comparison alone. -/
theorem cmpComparesSigned : Obligations.CmpComparesSigned := by
  unfold Obligations.CmpComparesSigned
  intro d s x st
  refine ⟨wordDecodes_l6_registers _ rfl (fun _ => rfl) d s x, ?_⟩
  rw [← compareSigned_eq]
  exact endStep_setFlags st (m := .cmp) rfl _

/-! ### MULT and DIV -/

/-- The high and low halves of the 64-bit product make the exact signed product: it fits 64 bits (R92). -/
theorem signedProduct_halves (x y : Word) :
    ((signedProduct x y).extractLsb' 32 32 ++ (signedProduct x y).extractLsb' 0 32 : BitVec 64).toInt =
      x.toInt * y.toInt := by
  have whole := BitVec.extractLsb'_append_extractLsb'_eq_extractLsb' (x := signedProduct x y) (start₁ := 0) (len₁ := 32)
    (start₂ := 32) (len₂ := 32) rfl
  have low : -2 ^ 62 ≤ x.toInt * y.toInt := BitVec.le_toInt_mul_toInt
  have high : x.toInt * y.toInt ≤ 2 ^ 62 := BitVec.toInt_mul_toInt_le
  rw [whole, BitVec.extractLsb'_eq_self]
  exact BitVec.toInt_ofInt_eq_self (by decide) (by omega) (by omega)

/-- Settles O34: the handler writes the two halves of the exact product. -/
theorem multWritesTheSignedProduct : Obligations.MultWritesTheSignedProduct := by
  unfold Obligations.MultWritesTheSignedProduct
  intro d s x st
  obtain ⟨t, ended, rest⟩ := endStep_writeReg_twice st (m := .mult) rfl d
    ((signedProduct (st.readReg d) (st.readReg s)).extractLsb' 32 32) s
    ((signedProduct (st.readReg d) (st.readReg s)).extractLsb' 0 32)
  exact ⟨wordDecodes_l6_registers _ rfl (fun _ => rfl) d s x, t, _, _, ended, signedProduct_halves _ _, rest⟩

theorem divUndefined_iff {n q : Word} :
    divUndefined n q = true ↔ q = 0#32 ∨ (n = 0x80000000#32 ∧ q = 0xFFFFFFFF#32) := by
  simp [divUndefined]

/-- Where DIV is defined its quotient fits 32 bits: the one that does not is 2^31 (R93). -/
theorem toInt_ofInt_quotient {n q : Word} (h : divUndefined n q = false) :
    (BitVec.ofInt 32 (quotient n q)).toInt = n.toInt.tdiv q.toInt := by
  have noOverflow : n ≠ BitVec.intMin 32 ∨ q ≠ -1#32 := by
    by_contra overflow
    obtain ⟨hn, hq⟩ := not_or.1 overflow
    exact Bool.eq_false_iff.1 h (divUndefined_iff.2 (.inr ⟨not_not.1 hn, not_not.1 hq⟩))
  rw [quotient, ← BitVec.toInt_sdiv_of_ne_or_ne n q noOverflow, BitVec.ofInt_toInt]

/-- DIV's remainder fits 32 bits: it is that of the truncated division. -/
theorem toInt_ofInt_remainder (n q : Word) : (BitVec.ofInt 32 (remainder n q)).toInt = n.toInt.tmod q.toInt := by
  have truncated : remainder n q = (n.srem q).toInt := by
    rw [remainder, quotient, BitVec.toInt_srem, Int.tmod_def, mul_comm]
  rw [truncated, BitVec.ofInt_toInt, BitVec.toInt_srem]

/-- A truncated remainder that is not 0 has the sign of the dividend. -/
theorem tmod_neg_iff {a b : Int} (h : a.tmod b ≠ 0) : a.tmod b < 0 ↔ a < 0 := by
  refine ⟨fun neg => ?_, fun neg => ?_⟩
  · by_contra nonneg
    have := Int.tmod_nonneg b (not_lt.1 nonneg)
    omega
  · have := Int.tmod_nonneg b (show 0 ≤ -a by omega)
    rw [Int.neg_tmod] at this
    omega

/-- Settles O35: quotient and remainder are those of truncated division, which fit where DIV is defined. -/
theorem divWritesQuotientAndRemainder : Obligations.DivWritesQuotientAndRemainder := by
  unfold Obligations.DivWritesQuotientAndRemainder
  intro d s x st nonzero noOverflow
  have hdef : divUndefined (st.readReg d) (st.readReg s) = false :=
    Bool.eq_false_iff.2 fun h => (divUndefined_iff.1 h).elim nonzero noOverflow
  have divisor : (st.readReg s).toInt ≠ 0 := fun h => nonzero (BitVec.toInt_inj.1 (by simpa using h))
  obtain ⟨t, ended, rest⟩ := endStep_writeReg_twice st (m := .div) rfl d
    (BitVec.ofInt 32 (quotient (st.readReg d) (st.readReg s))) s
    (BitVec.ofInt 32 (remainder (st.readReg d) (st.readReg s)))
  rw [← handleDiv_defined hdef, ← exec_div] at ended
  refine ⟨wordDecodes_l6_registers _ rfl (fun _ => rfl) d s x, t, _, _, ended, ?_, ?_, ?_, rest⟩
  · rw [toInt_ofInt_quotient hdef, toInt_ofInt_remainder, Int.tdiv_mul_add_tmod]
  · rw [toInt_ofInt_remainder, Int.natAbs_tmod]
    exact Nat.mod_lt _ (Int.natAbs_pos.2 divisor)
  · rw [toInt_ofInt_remainder]
    exact tmod_neg_iff

end Sys2Proof.Machine
end

section
/-! PROOFS. The statements of 42_load_store.md, and what stops undefined: each by its handler's case and the end of a
step around it. -/

namespace Sys2Proof.Machine

/-! ### Words -/

/-- A word of layout L18 with each operand in place (30_encoding.md R49). -/
theorem wordDecodes_l18 {m : Mnemonic} {i : RegIdx → RegIdx → BitVec 3 → BitVec 18 → Instr} (c : Config)
    (hl : layoutOf c m = .l18)
    (hi : ∀ u, instrOf m u = i (readRole u.d) (readRole u.s) (readRole u.m) (u.imm.setWidth 18))
    (d s : RegIdx) (k : BitVec 3) (imm : BitVec 18) :
    WordDecodes c m (fieldAt d 24 ||| fieldAt s 21 ||| fieldAt k 18 ||| fieldAt imm 0) (i d s k imm) := by
  have word := wordDecodes_access (c := c) (m := m)
    (rest := fieldAt d 24 ||| fieldAt s 21 ||| fieldAt k 18 ||| fieldAt imm 0)
    (fun j hj => by simp (disch := omega) [getLsbD_fieldAt_of_le]) hl hi
  simpa [fieldA, fieldB, fieldC, BitVec.setWidth_eq_extractLsb', BitVec.extractLsb'_or, extract_fieldAt_of_disjoint imm]
    using word

/-- A word of layout L6 with its one register in place, whatever its other bits (R51). -/
theorem wordDecodes_l6_register {m : Mnemonic} {i : RegIdx → Instr} (c : Config) (hl : layoutOf c m = .l6)
    (hi : ∀ u, instrOf m u = i (readRole u.d)) (d : RegIdx) (x : BitVec 24) :
    WordDecodes c m (fieldAt d 24 ||| fieldAt x 0) (i d) := by
  have word := wordDecodes_one_register (c := c) (fun _ => getLsbD_l24_of_le d x) hl hi
  rwa [fieldA_l24] at word

/-! ### The ends of a step -/

section
variable (st : State) {m : Mnemonic}

/-- A handler that raised a memory fault. -/
theorem endStep_memoryFault (writes : List RegIdx) (f : Word) :
    ∃ t, endStep st m writes (.memoryFault f) = .next t ∧ TakesFault st t f :=
  ⟨_, rfl, st.faultStep_takes f⟩

/-- A handler that stopped undefined. -/
theorem endStep_undefined (writes : List RegIdx) (r : UndefinedReason) :
    ∃ t, endStep st m writes (.undefined r) = .next t ∧ StopsUndefined st t :=
  ⟨_, rfl, st.undefinedStop_stops⟩

/-- A handler that stored bytes. -/
theorem endStep_writeBytes (hm : isControl m = false) (a n : Nat) (v : Word) :
    ∃ t, endStep st m [] (.done (st.setDmem (st.dmem.writeBytes a (bytesOf n v)))) = .next t ∧ Completes st t st.flags ∧
      Stores st t a n v ∧ WritesOnlyPc st t (st.pc + 4#32) :=
  ⟨_, rfl, completes_of_done rfl rfl rfl rfl rfl, stores_writeBytes a n v (by simp) (fun b => by simp [State.byte]),
    writesOnlyPc_of_done hm (by simp) rfl fun _ => rfl⟩

/-- A handler that stored bytes and wrote a register. -/
theorem endStep_writeBytes_writeReg (hm : isControl m = false) (a n : Nat) (v : Word) (d : RegIdx) (u : Word) :
    ∃ t, endStep st m [d] (.done ((st.setDmem (st.dmem.writeBytes a (bytesOf n v))).writeReg d u)) = .next t ∧
      Completes st t st.flags ∧ Stores st t a n v ∧ WritesOne st t d u :=
  ⟨_, rfl, completes_of_done rfl rfl rfl rfl rfl, stores_writeBytes a n v (by simp) (fun b => by simp [State.byte]),
    writesOne_of_done hm d u rfl fun _ => rfl⟩

end

/-! ### What stops undefined -/

theorem accessSize_eq_none {m : BitVec 3} (h1 : m ≠ 1#3) (h2 : m ≠ 2#3) (h4 : m ≠ 4#3) : accessSize m = none := by
  simp [accessSize, h1, h2, h4]

theorem shifted_reserved {m : BitVec 3} (h : 4 ≤ m.toNat) (v : Word) (n : Nat) : shifted m v n = none := by
  have other (k : BitVec 3) (hk : k.toNat < 4) : m ≠ k := by
    rintro rfl
    omega
  simp [shifted, other 0#3, other 1#3, other 2#3, other 3#3]

/-- Settles O36: each form meets the case of its handler that stops undefined. -/
theorem reservedFormsStopUndefined : Obligations.ReservedFormsStopUndefined := by
  unfold Obligations.ReservedFormsStopUndefined
  refine ⟨fun d s st h => ?_, fun d s m imm st h1 h2 h4 => ⟨?_, ?_⟩, fun d m imm st h => ?_⟩
  · rw [exec_div, handleDiv_undefined (divUndefined_iff.2 h)]
    exact endStep_undefined ..
  · rw [exec_load, handleLoad_reserved (accessSize_eq_none h1 h2 h4)]
    exact endStep_undefined ..
  · rw [exec_store, handleStore_reserved (accessSize_eq_none h1 h2 h4)]
    exact endStep_undefined ..
  · rw [exec_shift, handleShift, shifted_reserved h]
    exact endStep_undefined ..

/-! ### LOAD and STORE -/

/-- Settles O38: the handler's case in range writes the widened value of the bytes read. -/
theorem loadReadsMemory : Obligations.LoadReadsMemory := by
  unfold Obligations.LoadReadsMemory
  intro d s n imm st inside
  refine ⟨wordDecodes_l18 _ rfl (fun _ => rfl) d s _ imm, ?_⟩
  rw [← State.effectiveAddress_eq] at inside ⊢
  rw [exec_load, handleLoad_inRange (accessSize_bytes n) inside]
  obtain ⟨t, ended, rest⟩ := endStep_writeReg st (m := .load) rfl d _
  exact ⟨t, _, ended, readsAs_widen st _ n st.config.loadExt, rest⟩

/-- Settles O39: the handler's case in range stores the low bytes and nothing else. -/
theorem storeWritesMemory : Obligations.StoreWritesMemory := by
  unfold Obligations.StoreWritesMemory
  intro d s n imm st inside noConsole
  refine ⟨wordDecodes_l18 _ rfl (fun _ => rfl) d s _ imm, ?_⟩
  rw [← State.effectiveAddress_eq] at inside noConsole ⊢
  rw [exec_store, handleStore_inRange (accessSize_bytes n) noConsole inside]
  exact endStep_writeBytes st rfl ..

/-- Settles O40: the handler's console case comes before the range check (20_memory.md R37). -/
theorem consoleStoreAppendsOneByte : Obligations.ConsoleStoreAppendsOneByte := by
  unfold Obligations.ConsoleStoreAppendsOneByte
  intro d s imm st port
  rw [← State.effectiveAddress_eq] at port
  rw [exec_store, handleStore_console (n := .byte) (by decide) ⟨rfl, port⟩]
  exact ⟨_, rfl, completes_of_done rfl rfl rfl rfl rfl, by simp, by simp,
    writesOnlyPc_of_done rfl (by simp) rfl fun _ => rfl⟩

/-- Settles O41: the handlers' cases out of range raise the fault at the effective address. -/
theorem loadAndStoreOutOfRangeFault : Obligations.LoadAndStoreOutOfRangeFault := by
  unfold Obligations.LoadAndStoreOutOfRangeFault
  intro d s n imm st outside
  rw [← State.effectiveAddress_eq] at outside ⊢
  refine ⟨?_, fun noConsole => ?_⟩
  · rw [exec_load, handleLoad_outOfRange (accessSize_bytes n) outside.not_ge]
    exact endStep_memoryFault ..
  · rw [exec_store, handleStore_outOfRange (accessSize_bytes n) noConsole outside.not_ge]
    exact endStep_memoryFault ..

/-! ### PUSH and POP -/

/-- Settles O42: the push in range is a word store and a write of SP, and out of range a fault. -/
theorem pushStoresThenLowersSp : Obligations.PushStoresThenLowersSp := by
  unfold Obligations.PushStoresThenLowersSp
  intro d x st
  refine ⟨wordDecodes_l6_register _ rfl (fun _ => rfl) d x, ?_⟩
  rw [exec_push]
  split_ifs with inside
  · rw [handlePush_inRange inside]
    exact endStep_writeBytes_writeReg st rfl ..
  · rw [handlePush_outOfRange inside]
    exact endStep_memoryFault ..

/-- Settles O43: the pop in range writes `x[d]`, then SP as it stands then, and out of range is a fault. -/
theorem popLoadsThenRaisesSp : Obligations.PopLoadsThenRaisesSp := by
  unfold Obligations.PopLoadsThenRaisesSp
  intro d x st
  refine ⟨wordDecodes_l6_register _ rfl (fun _ => rfl) d x, ?_⟩
  by_cases inside : (popTarget st.config.stackMode st.sp).toNat + 4 ≤ st.config.memSize
  · simp only [exec_pop, handlePop_inRange inside, if_pos inside]
    obtain ⟨t, ended, rest⟩ := endStep_writeReg_twice st (m := .pop) rfl d _ spReg _
    exact ⟨t, ended, _, State.readsAs_of_memRead st _ 4 (by decide), rest⟩
  · simp only [exec_pop, handlePop_outOfRange inside, if_neg inside]
    exact endStep_memoryFault ..

end Sys2Proof.Machine
end

section
/-! PROOFS. The statements of 43_immediate.md: each by the word of its layout and the value its handler writes. -/

namespace Sys2Proof.Machine

/-! ### Words -/

/-- The immediate of an L24 word. -/
theorem setWidth_l24 (d : RegIdx) (imm : BitVec 24) : (fieldAt d 24 ||| fieldAt imm 0).setWidth 24 = imm := by
  rw [← setWidth_and_mask _ (by decide), imm_l24, setWidth_fieldAt_zero (by decide)]

/-- A word of layout L24 with its register and immediate in place (30_encoding.md R49). -/
theorem wordDecodes_l24 {m : Mnemonic} {i : RegIdx → BitVec 24 → Instr} (c : Config) (hl : layoutOf c m = .l24)
    (hi : ∀ u, instrOf m u = i (readRole u.d) (u.imm.setWidth 24)) (d : RegIdx) (imm : BitVec 24) :
    WordDecodes c m (fieldAt d 24 ||| fieldAt imm 0) (i d imm) := by
  have word := wordDecodes_register_immediate (c := c) (fun _ => getLsbD_l24_of_le d imm) hl hi
  rwa [fieldA_l24, setWidth_l24] at word

/-- MOVIU's word, whatever its bits 23:16 (R51). -/
theorem wordDecodes_l16 (c : Config) (d : RegIdx) (x : BitVec 8) (imm : BitVec 16) :
    WordDecodes c .moviu (fieldAt d 24 ||| fieldAt x 16 ||| fieldAt imm 0) (.moviu d imm) := by
  have word := wordDecodes_moviu (c := c) (rest := fieldAt d 24 ||| fieldAt x 16 ||| fieldAt imm 0) fun j hj => by
    simp (disch := omega) [getLsbD_fieldAt_of_le]
  simpa [fieldA, BitVec.setWidth_eq_extractLsb', BitVec.extractLsb'_or, extract_fieldAt_of_disjoint imm] using word

/-- SHIFT's word. -/
theorem wordDecodes_l21 (c : Config) (d k : RegIdx) (imm : BitVec 21) :
    WordDecodes c .shift (fieldAt d 24 ||| fieldAt k 21 ||| fieldAt imm 0) (.shift d k imm) := by
  have word := wordDecodes_shift (c := c) (rest := fieldAt d 24 ||| fieldAt k 21 ||| fieldAt imm 0) fun j hj => by
    simp (disch := omega) [getLsbD_fieldAt_of_le]
  simpa [fieldA, fieldB, BitVec.setWidth_eq_extractLsb', BitVec.extractLsb'_or, extract_fieldAt_of_disjoint imm]
    using word

/-! ### Immediate -/

/-- MOVIU's value is the immediate above 16 zero bits. -/
theorem upperOf_eq (imm : BitVec 16) : upperOf imm = imm ++ 0#16 := by
  have value : (imm ++ 0#16).setWidth 32 = upperOf imm := by
    rw [setWidth_append_eq, BitVec.setWidth_zero, BitVec.zero_or, upperOf]
  exact value.symm.trans (BitVec.setWidth_eq _)

/-- Settles O44: a handler that writes one register. -/
theorem moviuLoadsTheUpperHalf : Obligations.MoviuLoadsTheUpperHalf := by
  unfold Obligations.MoviuLoadsTheUpperHalf
  intro d imm x st
  refine ⟨wordDecodes_l16 _ d x imm, ?_⟩
  rw [exec_moviu, handleMoviu, upperOf_eq]
  exact endStep_writeReg st rfl d _

/-- Settles O45: two handlers that write one register, the immediate extended by sign and by zeros. -/
theorem addiAndAddiuAddTheImmediate : Obligations.AddiAndAddiuAddTheImmediate := by
  unfold Obligations.AddiAndAddiuAddTheImmediate
  intro d imm st
  refine ⟨⟨wordDecodes_l24 _ rfl (fun _ => rfl) d imm, ?_⟩, ⟨wordDecodes_l24 _ rfl (fun _ => rfl) d imm, ?_⟩⟩
  · rw [exec_addi, handleAddi, signedImmediate_eq]
    exact endStep_writeReg st rfl d _
  · rw [exec_addiu, handleAddiu, unsignedImmediate_eq]
    exact endStep_writeReg st rfl d _

/-- CMPIU's flags are the unsigned comparisons of the low 24 bits (R105). -/
theorem compareLow24_eq (f : Flags) (x : Word) (imm : BitVec 24) :
    f.compareLow24 x imm = ⟨(x.setWidth 24).ult imm, x.setWidth 24 == imm, imm.ult (x.setWidth 24), f.c⟩ := by
  rw [BitVec.setWidth_eq_extractLsb' (show 24 ≤ 32 by decide)]
  simp only [Flags.compareLow24, Flags.ofCompare, BitVec.ult, Nat.cast_lt, Nat.cast_inj, BitVec.toNat_inj,
    beq_eq_decide]

/-- Settles O46: the handler writes the flags of the unsigned comparison alone. -/
theorem cmpiuComparesTheLowBits : Obligations.CmpiuComparesTheLowBits := by
  unfold Obligations.CmpiuComparesTheLowBits
  intro d imm st
  refine ⟨wordDecodes_l24 _ rfl (fun _ => rfl) d imm, ?_⟩
  rw [← compareLow24_eq]
  exact endStep_setFlags st (m := .cmpiu) rfl _

/-- The four kinds SHIFT defines (R106, D24). -/
theorem shifted_defined {m : BitVec 3} (h : m.toNat < 4) (v : Word) (n : Nat) :
    shifted m v n = some (if m = 1#3 then v >>> n else if m = 3#3 then v.sshiftRight n else v <<< n) := by
  have kinds : m = 0#3 ∨ m = 1#3 ∨ m = 2#3 ∨ m = 3#3 := by
    revert h
    revert m
    decide
  rcases kinds with rfl | rfl | rfl | rfl <;> rfl

/-- Settles O47: a defined kind gives a value, which the handler writes to one register. -/
theorem shiftShiftsByTheLowFiveBits : Obligations.ShiftShiftsByTheLowFiveBits := by
  unfold Obligations.ShiftShiftsByTheLowFiveBits
  intro d m imm st h
  refine ⟨wordDecodes_l21 _ d m imm, ?_⟩
  rw [exec_shift, handleShift, shiftAmount_eq, shifted_defined h]
  exact endStep_writeReg st rfl d _

end Sys2Proof.Machine
end

section
/-! PROOFS. The statements of 44_control.md about JSR, SYS and the frame of the branches and jumps. -/

namespace Sys2Proof.Machine

/-! ### JSR and SYS -/

/-- JSR's word under either layout: the link register is bits 26:24 (30_encoding.md R52). -/
theorem fieldA_fieldAt_zero (imm : BitVec 27) : fieldA (fieldAt imm 0) = imm.extractLsb' 24 3 :=
  extract_fieldAt_zero imm (by decide)

theorem setWidth_fieldAt_zero_of_le {n k : Nat} (imm : BitVec n) (h : k ≤ 32) :
    (fieldAt imm 0).setWidth k = imm.setWidth k := by
  rw [fieldAt, BitVec.shiftLeft_zero, BitVec.setWidth_setWidth_of_le _ h]

/-- JSR ends with the link in its register and the PC moved from where the link left it. -/
theorem endStep_jsr (d : RegIdx) (imm : BitVec 27) (st : State) :
    ∃ t, exec (.jsr d imm) st = .next t ∧ Completes st t st.flags ∧ KeepsMemory st t ∧
      t.pc = (if d = pcReg then st.pc + 4#32 else st.pc) + jsrDisplacement st.config.jsrLayout imm ∧
      (d ≠ pcReg → t.readReg d = st.pc + 4#32) ∧ ∀ r, r ≠ pcReg → r ≠ d → t.readReg r = st.readReg r := by
  rw [exec_jsr, handleJsr]
  refine ⟨_, rfl, completes_of_done rfl rfl rfl rfl rfl, keepsMemory_of_done rfl rfl, ?_⟩
  rw [State.advance_control _ _ _ rfl]
  refine ⟨by simp [State.pc_writeReg], fun notPc => ?_, fun r notPc other => ?_⟩
  · simp [State.readReg_writeReg, notPc.symm]
  · simp [State.readReg_writeReg, notPc.symm, other.symm]

/-- Settles O50: the layout decides the width of the immediate, in the word and in the displacement. -/
theorem jsrLinksThenBranches : Obligations.JsrLinksThenBranches := by
  unfold Obligations.JsrLinksThenBranches
  intro d imm st
  have above (j : Nat) (hj : 27 ≤ j) : (fieldAt imm 0).getLsbD j = false := getLsbD_fieldAt_zero_of_le imm hj
  obtain ⟨t, ended, completes, memory, pc, registers⟩ := endStep_jsr d imm st
  cases hl : st.config.jsrLayout with
  | l27 =>
    have word := wordDecodes_jsr_l27 above hl
    rw [fieldA_fieldAt_zero, setWidth_fieldAt_zero_of_le imm (by decide), BitVec.setWidth_eq] at word
    rw [hl, jsrDisplacement, displacement27_eq] at pc
    exact ⟨word, t, ended, completes, memory, pc, registers⟩
  | l24 =>
    have word := wordDecodes_jsr_l24 above hl
    rw [fieldA_fieldAt_zero, setWidth_fieldAt_zero_of_le imm (by decide)] at word
    rw [hl, jsrDisplacement, displacement24_eq] at pc
    exact ⟨word, t, ended, completes, memory, pc, registers⟩

/-- JNE, JL, JMP and JR are control handlers that write the PC alone, so they complete. -/
theorem completes_of_writePc {st t : State} {m : Mnemonic} {writes : List RegIdx} {p : Word}
    (h : endStep st m writes (.done (st.writeReg pcReg p)) = .next t) : Completes st t st.flags := by
  cases h
  exact completes_of_done rfl rfl rfl rfl rfl

/-- Settles O53: each handler writes the PC and nothing else. -/
theorem branchesAndJumpsLeaveTheRest : Obligations.BranchesAndJumpsLeaveTheRest := by
  unfold Obligations.BranchesAndJumpsLeaveTheRest
  intro i s t hi h
  cases i with
  | jne imm => exact completes_of_writePc h
  | jl imm => exact completes_of_writePc h
  | jmp imm => exact completes_of_writePc h
  | jr d imm => exact completes_of_writePc h
  | _ => simp [Instr.mnemonic] at hi

/-- Settles O54: the push in range and then the write of the PC, or the fault of the push. -/
theorem sysPushesThePcAndVectors : Obligations.SysPushesThePcAndVectors := by
  unfold Obligations.SysPushesThePcAndVectors
  intro imm st
  refine ⟨wordDecodes_l27 rfl (fun _ => rfl) imm, ?_⟩
  rw [exec_sys]
  split_ifs with inside
  · rw [handleSys_inRange inside, vectorAddress_eq]
    refine ⟨_, rfl, completes_of_done rfl rfl rfl rfl rfl,
      stores_writeBytes _ 4 _ (by simp) (fun b => by simp [State.byte]), ?_⟩
    rw [State.advance_control _ _ _ rfl]
    refine ⟨by simp [State.pc_writeReg], ?_, fun r notPc notSp => ?_⟩
    · simp [State.sp_writeReg, show pcReg ≠ spReg by decide]
    · simp [State.readReg_writeReg, notPc.symm, notSp.symm]
  · rw [handleSys_outOfRange inside]
    exact endStep_memoryFault ..

end Sys2Proof.Machine
end

section
/-! PROOFS. The statements of 45_system.md: SWAPCC and HALT. -/

namespace Sys2Proof.Machine

/-! ### The exchange -/

/-- What SWAPCC leaves in its register: the value with the packed flags in its low four bits (R115). -/
def swapped (v : Word) (f : Flags) : Word := (v &&& 0xFFFFFFF0#32) ||| f.packed

/-- SWAPCC writes the flags and one register. -/
theorem endStep_swapcc (d : RegIdx) (st : State) :
    ∃ t, exec (.swapcc d) st = .next t ∧ Completes st t (flagsOfBits (st.readReg d)) ∧ KeepsMemory st t ∧
      WritesOne st t d (swapped (st.readReg d) st.flags) :=
  endStep_setFlags_writeReg st (m := .swapcc) rfl _ d _

/-- The upper 28 bits, moved back up, are the value without its low four. -/
theorem extract_shiftLeft_four (v : Word) : (v.extractLsb' 4 28).setWidth 32 <<< 4 = v &&& 0xFFFFFFF0#32 := by
  rw [show 0xFFFFFFF0#32 = ~~~(mask 4) by decide]
  ext j hj
  rw [← BitVec.getLsbD_eq_getElem, ← BitVec.getLsbD_eq_getElem]
  simp only [BitVec.getLsbD_and, BitVec.getLsbD_not, getLsbD_mask (show 4 ≤ 31 by decide), BitVec.getLsbD_shiftLeft,
    BitVec.getLsbD_setWidth, BitVec.getLsbD_extractLsb', hj, decide_true, Bool.true_and]
  by_cases low : j < 4
  · simp [low]
  · simp [low, show 4 + (j - 4) = j by omega, show j - 4 < 28 by omega, show j - 4 < 32 by omega]

/-- The swapped value is its upper 28 bits followed by `C`, `LT`, `GT`, `EQ` (R115). -/
theorem swapped_eq_append (v : Word) (f : Flags) : swapped v f =
    v.extractLsb' 4 28 ++ BitVec.ofBool f.c ++ BitVec.ofBool f.lt ++ BitVec.ofBool f.gt ++ BitVec.ofBool f.eq := by
  have value : (v.extractLsb' 4 28 ++ BitVec.ofBool f.c ++ BitVec.ofBool f.lt ++ BitVec.ofBool f.gt ++
      BitVec.ofBool f.eq).setWidth 32 = swapped v f := by
    rw [swapped, Flags.packed, ← extract_shiftLeft_four]
    simp only [setWidth_append_eq, BitVec.shiftLeft_or_distrib]
    simp only [← BitVec.shiftLeft_add, Nat.reduceAdd]
    ac_rfl
  exact value.symm.trans (BitVec.setWidth_eq _)

/-- Settles O55: the handler writes the flags and one register. -/
theorem swapccExchangesTheFlags : Obligations.SwapccExchangesTheFlags := by
  unfold Obligations.SwapccExchangesTheFlags
  intro d x st
  refine ⟨wordDecodes_l6_register _ rfl (fun _ => rfl) d x, ?_⟩
  rw [← swapped_eq_append]
  exact endStep_swapcc d st

/-- Unpacking undoes packing. -/
theorem flagsOfBits_packed (f : Flags) : flagsOfBits f.packed = f := by
  obtain ⟨lt, eq, gt, c⟩ := f
  revert lt eq gt c
  decide

/-- The flags read back from a swapped value are those packed in it. -/
theorem flagsOfBits_swapped (v : Word) (f : Flags) : flagsOfBits (swapped v f) = f := by
  have low (k : Nat) (hk : k < 4) : (swapped v f).getLsbD k = f.packed.getLsbD k := by
    rw [swapped, show 0xFFFFFFF0#32 = ~~~(mask 4) by decide, BitVec.getLsbD_or, BitVec.getLsbD_and, BitVec.getLsbD_not,
      getLsbD_mask (by decide)]
    simp [hk]
  rw [flagsOfBits, low 0 (by decide), low 1 (by decide), low 2 (by decide), low 3 (by decide)]
  exact flagsOfBits_packed f

/-- Packing the flags that a value's low bits stand for gives those bits. -/
theorem packed_flagsOfBits (v : Word) : (flagsOfBits v).packed = v &&& 0xF#32 := by
  have bit (k : Nat) : (BitVec.ofBool (v.getLsbD k)).setWidth 32 <<< k = v &&& BitVec.twoPow 32 k := by
    rw [BitVec.and_twoPow]
    cases v.getLsbD k <;> simp [BitVec.twoPow]
  have b0 := bit 0
  rw [BitVec.shiftLeft_zero] at b0
  simp only [Flags.packed, flagsOfBits]
  rw [b0, bit 1, bit 2, bit 3, ← BitVec.and_or_distrib_left, ← BitVec.and_or_distrib_left, ← BitVec.and_or_distrib_left]
  rfl

/-- Packed flags lie in the low four bits. -/
theorem packed_and_upper (f : Flags) : f.packed &&& 0xFFFFFFF0#32 = 0#32 := by
  obtain ⟨lt, eq, gt, c⟩ := f
  revert lt eq gt c
  decide

/-- Swapping the flags a value's low bits stand for back into it gives the value. -/
theorem swapped_swapped (v : Word) (f : Flags) : swapped (swapped v f) (flagsOfBits v) = v := by
  have upper : swapped v f &&& 0xFFFFFFF0#32 = v &&& 0xFFFFFFF0#32 := by
    rw [swapped, BitVec.and_or_distrib_right, packed_and_upper, BitVec.or_zero, BitVec.and_assoc, BitVec.and_self]
  rw [swapped, upper, packed_flagsOfBits, ← BitVec.and_or_distrib_left]
  exact BitVec.and_allOnes

/-- Settles O56: the second exchange undoes the first, in the register and in the flags. -/
theorem twoSwapccsRestore : Obligations.TwoSwapccsRestore := by
  unfold Obligations.TwoSwapccsRestore
  intro d st notPc
  obtain ⟨t, first, completes, -, -, written, kept⟩ := endStep_swapcc d st
  obtain ⟨u, second, completes', -, -, written', kept'⟩ := endStep_swapcc d t
  refine ⟨t, u, first, second, ?_, fun r hr => ?_⟩
  · rw [completes'.flags, written notPc, flagsOfBits_swapped]
  · by_cases same : r = d
    · rw [same, written' notPc, written notPc, completes.flags, swapped_swapped]
    · rw [kept' r hr same, kept r hr same]

/-- Settles O57: the handler writes `RUN` alone, and the PC advances as after any other instruction. -/
theorem haltStopsTheMachine : Obligations.HaltStopsTheMachine := by
  unfold Obligations.HaltStopsTheMachine
  intro x st
  refine ⟨wordDecodes_halt fun _ => getLsbD_fieldAt_zero_of_le x, _, exec_halt st, ?_, keepsMemory_of_done rfl rfl,
    writesOnlyPc_of_done rfl (by simp) rfl fun _ => rfl⟩
  exact ⟨by simp, by simp, by simp, by simp, by simp, by simp⟩

end Sys2Proof.Machine
end

section
/-! PROOFS. The alignment of the PC (40_engine.md R76), and the words the spec writes out. -/

namespace Sys2Proof.Machine

/-! ### The alignment of the PC -/

/-- A multiple of 4 modulo 2^32 plus another is one. -/
theorem add_mod_four {x y : Word} (hx : x.toNat % 4 = 0) (hy : y.toNat % 4 = 0) : (x + y).toNat % 4 = 0 := by
  rw [BitVec.toNat_add]
  omega

/-- A displacement is a multiple of 4 (30_encoding.md R56). -/
theorem shiftLeft_two_mod_four (x : Word) : (x <<< 2).toNat % 4 = 0 := by
  rw [BitVec.toNat_shiftLeft, Nat.shiftLeft_eq]
  omega

/-- A non-control instruction that does not list `x[7]` adds 4 to the PC, or leaves it when it stops. -/
theorem exec_pc_of_not_control {i : Instr} {s t : State} (h : exec i s = .next t) (hi : isControl i.mnemonic = false)
    (unlisted : pcReg ∉ listedWrites i) : t.pc = s.pc + 4#32 ∨ t.pc = s.pc := by
  rcases exec_cases h with ⟨copy, frame, rfl⟩ | ⟨f, rfl⟩ | rfl
  · have kept : copy.pc = s.pc := frame.regs pcReg unlisted
    refine .inl ?_
    rw [State.countStep_pc, State.advance_pc _ _ _ hi, kept]
    simp [unlisted]
  · exact .inr rfl
  · exact .inr rfl

/-- The PC after a control instruction, from the statements about each: the old PC, a register or nothing, plus a
multiple of 4. -/
theorem exec_pc_of_control {i : Instr} {s t : State} (h : exec i s = .next t) (hi : isControl i.mnemonic = true)
    (aligned : s.pc.toNat % 4 = 0) (register : ∀ d imm, i = .jr d imm → (s.readReg d).toNat % 4 = 0) :
    t.pc.toNat % 4 = 0 := by
  have next : (s.pc + 4#32).toNat % 4 = 0 := add_mod_four aligned rfl
  cases i with
  | jne imm =>
    obtain ⟨-, -, t', ht, -, -, -, pc, -⟩ := jneBranchesWhenNotEqual imm ⟨0, 0, 0, 0⟩ s
    cases h.symm.trans ht
    rw [pc]
    split_ifs
    · exact add_mod_four aligned (shiftLeft_two_mod_four _)
    · exact next
  | jl imm =>
    obtain ⟨-, -, t', ht, -, -, -, pc, -⟩ := jlBranchesWhenLess imm ⟨0, 0, 0, 0⟩ s
    cases h.symm.trans ht
    rw [pc]
    split_ifs
    · exact add_mod_four aligned (shiftLeft_two_mod_four _)
    · exact next
  | jmp imm =>
    obtain ⟨-, -, t', ht, -, -, -, pc, -⟩ := jmpIsAbsolute imm ⟨0, 0, 0, 0⟩ s
    cases h.symm.trans ht
    rw [pc]
    exact shiftLeft_two_mod_four _
  | jr d imm =>
    obtain ⟨-, -, t', ht, -, -, -, pc, -⟩ := jrJumpsThroughARegister d imm ⟨0, 0, 0, 0⟩ s
    cases h.symm.trans ht
    rw [pc]
    exact add_mod_four (register d imm rfl) (shiftLeft_two_mod_four _)
  | jsr d imm =>
    obtain ⟨t', ht, -, -, pc, -⟩ := endStep_jsr d imm s
    cases h.symm.trans ht
    have displacement : (jsrDisplacement s.config.jsrLayout imm).toNat % 4 = 0 := by
      cases s.config.jsrLayout <;> exact shiftLeft_two_mod_four _
    rw [pc]
    split_ifs
    · exact add_mod_four next displacement
    · exact add_mod_four aligned displacement
  | sys imm =>
    obtain ⟨-, t', ht, outcome⟩ := sysPushesThePcAndVectors imm s
    cases h.symm.trans ht
    split_ifs at outcome
    · obtain ⟨-, -, pc, -⟩ := outcome
      rw [pc]
      exact shiftLeft_two_mod_four _
    · rw [outcome]
      exact aligned
  | _ => cases hi

/-- Settles O25: control instructions set the PC to a multiple of 4, the others add 4 or leave it. -/
theorem pcStaysWordAligned : Obligations.PcStaysWordAligned := by
  unfold Obligations.PcStaysWordAligned
  intro i s t h aligned register unlisted
  cases hi : isControl i.mnemonic with
  | true => exact exec_pc_of_control h hi aligned register
  | false =>
    rcases exec_pc_of_not_control h hi (unlisted hi) with pc | pc <;> rw [pc]
    · exact add_mod_four aligned rfl
    · exact aligned

/-! ### The words the spec writes out -/

/-- Settles O1: each word is decoded by evaluation, for the parameters and the words are given. -/
theorem specWordsDecode : Obligations.SpecWordsDecode := by
  unfold Obligations.SpecWordsDecode
  decide

end Sys2Proof.Machine
end
